-- ==== Sys2Proof/Word.lean ====
section
/-! DEFINITION. The two widths of the LSBPU: 32-bit registers and command words, 8-bit buffer and carrier
entries (00_scope.md R10). -/

namespace Sys2Proof

/-- A register, a command word or a word on the register port: 32 bits (00_scope.md R10). -/
abbrev Word := BitVec 32

/-- An entry of a buffer or of the Carrier Store, and a mask byte: 8 bits (00_scope.md R10). -/
abbrev Byte := BitVec 8

/-- The register port's byte address: 22 bits (20_memory.md R60). -/
abbrev PortAddr := BitVec 22

end Sys2Proof
end

