-- ==== Sys2Proof/Config.lean ====
section
/-! DEFINITION. What an implementation fixes (the four parameters, 00_scope.md R6 to R9) and the values the spec
leaves open (free values: constants without a body, so nothing can be proved of them). -/

namespace Sys2Proof

/-- The implementation parameters (00_scope.md R6 to R9). A machine is built with one value of them
(`State.resetWith`), which no step changes. -/
structure Params where
  /-- `PWD_MAX`, entries of the password buffer (R6). -/
  pwdMax : Nat
  /-- `MSG_MAX`, entries of the message buffer (R7). -/
  msgMax : Nat
  /-- `CAR_MAX`, the largest carrier in pixels, and the size of the Carrier Store (R8). -/
  carMax : Nat
  /-- `OUT_MAX`, entries of the output buffer (R9). -/
  outMax : Nat
  deriving DecidableEq, Repr

/-- The ranges of the parameters, 00_scope.md R6 (`PWD_MAX`), R7 (`MSG_MAX`), R8 (`CAR_MAX`), R9 (`OUT_MAX`). -/
abbrev Params.legal (p : Params) : Prop :=
  (1 ≤ p.pwdMax ∧ p.pwdMax ≤ 16384) ∧
  p.msgMax ≤ 262144 ∧
  (24 ≤ p.carMax ∧ p.carMax ≤ 4194304) ∧
  (p.msgMax + 3 ≤ p.outMax ∧ p.carMax / 8 ≤ p.outMax ∧ p.outMax ≤ 524288)

/-- DESIGN CHOICE (notes/assumptions/1.md): the parameters of `State.reset`, the largest the spec allows.
The spec leaves them OPEN (92_eei_decisions.md D7); statements are made for every legal value. -/
def Config.params : Params :=
  { pwdMax := 16384, msgMax := 262144, carMax := 4194304, outMax := 524288 }

/-- Free value (notes/assumptions/4.md): `PWD[i]` after the `n`-th reset, until written
(10_state.md R45, 70_reset_and_hazards.md R283, 93_implementation_defined.md I2). -/
opaque Config.resetPwd : Nat → Nat → Byte

/-- Free value (notes/assumptions/4.md): `MSG[i]` after the `n`-th reset, until written (I2). -/
opaque Config.resetMsg : Nat → Nat → Byte

/-- Free value (notes/assumptions/4.md): `OUT[i]` after the `n`-th reset, until written (I2). -/
opaque Config.resetOut : Nat → Nat → Byte

/-- Free value (notes/assumptions/5.md): `CS[k]` until it is loaded or written (20_memory.md R75, I3). -/
opaque Config.unloadedCarrier : Nat → Byte

/-- Free value (notes/assumptions/6.md): what the `n`-th unspecified read made while BUSY returns
(20_memory.md R83, I4). -/
opaque Config.busyRead : Nat → Word

end Sys2Proof
end

