-- ==== Sys2Proof/Syntax.lean ====
section
/-! DEFINITION. The command set, 30_encoding.md R93: one constructor per row of spec/opcode_table.json. -/

namespace Sys2Proof

/-- A command of the LSBPU (30_encoding.md R93). The other operands of a command are registers and buffers sampled
at accept; only MASKAT carries one in its word (R92). -/
inductive Instr where
  /-- NOP, 0x00 (40_command.md R117). -/
  | nop
  /-- HIDE, 0x01 (44_pack.md R195). -/
  | hide
  /-- SHOW, 0x02 (45_unpack.md R214); the plain word is one of Lean's own. -/
  | showCmd
  /-- CHKCAP, 0x03 (43_capacity.md R172). -/
  | chkcap
  /-- MASKAT, 0x04 (41_cipher.md R134), with the mask index, an unsigned 24-bit number (30_encoding.md R92). -/
  | maskat (index : Nat)
  /-- FRAME, 0x05 (42_framer.md R155). -/
  | frame
  /-- UNFRAME, 0x06 (42_framer.md R156). -/
  | unframe
  deriving DecidableEq, Repr

end Sys2Proof
end

