-- ==== Sys2Proof/WellFormed.lean ====
section
/-! DEFINITION. Which commands can be spelled: the mask index has 24 bits (30_encoding.md R92). -/

namespace Sys2Proof

/-- A command that a command word can spell. "A larger index cannot be spelled" (30_encoding.md R92). -/
def Instr.wellFormed : Instr → Bool
  | .nop => true
  | .hide => true
  | .showCmd => true
  | .chkcap => true
  | .maskat index => decide (index < 2 ^ 24)
  | .frame => true
  | .unframe => true

end Sys2Proof
end

