-- ==== Sys2Proof/Decode.lean ====
section
/-! DEFINITION. The command word: decoder (30_encoding.md R90 to R96), then encoder, from the same table (R93). -/

namespace Sys2Proof

/-- Why a word is not a command; both are completed with `ILLEGAL_CMD` (60_exceptions.md R243). -/
inductive DecodeError where
  /-- `OP` is one of 0x07 to 0xFF (30_encoding.md R94). -/
  | reservedOpcode (op : BitVec 8)
  /-- `IMM24` is not 0 and `OP` is not MASKAT's (30_encoding.md R95). -/
  | operandNotZero (op : BitVec 8) (imm : BitVec 24)
  deriving DecidableEq, Repr

/-- `OP`, bits 7:0 (30_encoding.md R91). -/
def opField (w : Word) : BitVec 8 := w.extractLsb' 0 8

/-- `IMM24`, bits 31:8 (30_encoding.md R91). -/
def immField (w : Word) : BitVec 24 := w.extractLsb' 8 24

/-- The opcodes that take no operand in the word (30_encoding.md R93). -/
def plainCommand (op : BitVec 8) : Option Instr :=
  if op = 0x00#8 then some .nop
  else if op = 0x01#8 then some .hide
  else if op = 0x02#8 then some .showCmd
  else if op = 0x03#8 then some .chkcap
  else if op = 0x05#8 then some .frame
  else if op = 0x06#8 then some .unframe
  else none

/-- The decoder of 30_encoding.md R96: total, and it reads the word alone. -/
def decode (w : Word) : Except DecodeError Instr :=
  if opField w = 0x04#8 then .ok (.maskat (immField w).toNat)
  else
    match plainCommand (opField w) with
    | none => .error (.reservedOpcode (opField w))
    | some i => if immField w = 0#24 then .ok i else .error (.operandNotZero (opField w) (immField w))

/-- The opcode of a command (30_encoding.md R93). -/
def opcode : Instr → BitVec 8
  | .nop => 0x00#8
  | .hide => 0x01#8
  | .showCmd => 0x02#8
  | .chkcap => 0x03#8
  | .maskat _ => 0x04#8
  | .frame => 0x05#8
  | .unframe => 0x06#8

/-- The `IMM24` of a command: the mask index of MASKAT, 0 for every other (30_encoding.md R91). -/
def operandField : Instr → BitVec 24
  | .nop => 0#24
  | .hide => 0#24
  | .showCmd => 0#24
  | .chkcap => 0#24
  | .maskat index => BitVec.ofNat 24 index
  | .frame => 0#24
  | .unframe => 0#24

/-- The word of a command (30_encoding.md R93, R98): `IMM24` above `OP`. -/
def encode (i : Instr) : Word := operandField i ++ opcode i

/-- The word of a table row's `nbits` bits `w`, with every bit above `nbits` 0. The port moves one 32-bit word whose
value is a number (20_memory.md R68), so the table's bit numbers are the word's own. -/
def tableWord (nbits w : Nat) : Word := BitVec.ofNat 32 (w % 2 ^ nbits)

/-- What the decoder reads from a table row's word; a word of more than 32 bits is no command (30_encoding.md R90). -/
def decodeTableWord (nbits w : Nat) : Option Instr :=
  if nbits ≤ 32 then (decode (tableWord nbits w)).toOption else none

end Sys2Proof
end

