-- ==== Sys2Proof/Machine/State.lean ====
section
/-! DEFINITION. The state of the LSBPU (10_state.md), as plain data, its value after reset (R45), and why a run can
stop. -/

namespace Sys2Proof.Machine

/-- `CTRL.BIT_ORDER` (10_state.md R22). -/
inductive BitOrder where
  /-- 0: bit 7 of each byte first. -/
  | msbFirst
  /-- 1: bit 0 of each byte first. -/
  | lsbFirst
  deriving DecidableEq, Repr

/-- The stored fields of `CTRL` (10_state.md R22); its bits 31:3 read 0 and store nothing. -/
structure Ctrl where
  cipherEn : Bool
  bitOrder : BitOrder
  irqEn : Bool
  deriving DecidableEq, Repr

/-- The stored fields of `STATUS` (10_state.md R24). `BUSY` is the sequencer state (R41), held once, there; the
reserved bits read 0 and store nothing. -/
structure Status where
  done : Bool
  err : Bool
  term : Bool
  capOk : Bool
  bwerr : Bool
  errcode : BitVec 4
  deriving DecidableEq, Repr

/-- The error codes a command can end with (60_exceptions.md R240). -/
inductive ErrorCode where
  /-- code 1: the framed payload needs more bits than the carrier has (R241). -/
  | capacity
  /-- code 2: reserved, never raised (R242). -/
  | capacityPack
  /-- code 3: the word does not decode (R243). -/
  | illegalCmd
  /-- code 4: a length or carrier size out of range (R244). -/
  | invalidArgument
  deriving DecidableEq, Repr

/-- The operand registers a command samples at accept (10_state.md R41, 40_command.md R110). -/
structure Operands where
  ctrl : Ctrl
  width : Word
  height : Word
  pwdLen : Word
  msgLen : Word
  deriving DecidableEq, Repr

/-- The sequencer state (10_state.md R41). -/
inductive Sequencer where
  | idle
  /-- The accepted command word and the operand registers at accept. -/
  | busy (word : Word) (held : Operands)
  deriving DecidableEq, Repr

/-- One turn of the world outside the sequencer, or the sequencer's own (00_scope.md R12, 70_reset_and_hazards.md
R270). The order of turns is plain data in State. -/
inductive Turn where
  /-- The host reads a word of the register port (20_memory.md R61). -/
  | hostRead (addr : PortAddr)
  /-- The host writes a word of the register port (20_memory.md R61). -/
  | hostWrite (addr : PortAddr) (value : Word)
  /-- The carrier adapter writes `CS[k]` (20_memory.md R87, load carrier). -/
  | carrierLoad (k : Nat) (value : Byte)
  /-- The carrier adapter reads `CS[k]` (20_memory.md R87, save carrier). -/
  | carrierSave (k : Nat)
  /-- `RST` acts. `written` is the draw of 70_reset_and_hazards.md R272: the pixels a HIDE in progress had written. -/
  | reset (written : List Nat)
  /-- The sequencer's completion step, if a command is in progress (40_command.md R112). -/
  | sequencer
  deriving DecidableEq, Repr

/-- A byte array: the entries that have been written, as (index, byte) pairs. An index that is not listed holds
its unspecified value (a free value of Config; notes/assumptions/4.md, 5.md). -/
abbrev Memory := List Host.Cell

/-- The canonical form: indices strictly rising. No entry can equal what an unlisted index holds, since that is no
listed value at all (notes/assumptions/4.md). -/
abbrev Memory.wf (m : Memory) : Prop := m.Pairwise (fun c d => c.1 < d.1)

/-- The machine: the block (10_state.md), the Carrier Store (R44), and the model's own fields, which hold the
outside world's turns and what its reads returned. -/
structure State where
  /-- The parameters, read at `CAR_MAX`, `MSG_MAX`, `PWD_MAX`, `OUT_MAX` (R35). -/
  params : Params
  /-- `CTRL` (R22). -/
  ctrl : Ctrl
  /-- `STATUS` (R24). -/
  status : Status
  /-- `WIDTH` (R31). -/
  width : Word
  /-- `HEIGHT` (R31). -/
  height : Word
  /-- `PWD_LEN` (R32). -/
  pwdLen : Word
  /-- `MSG_LEN` (R32). -/
  msgLen : Word
  /-- `OUT_LEN` (R33). -/
  outLen : Word
  /-- `RESULT` (R34). -/
  result : Word
  /-- `CURSOR` (R36). -/
  cursor : Word
  /-- The sequencer (R41). -/
  seq : Sequencer
  /-- `PWD` (R38). -/
  pwd : Memory
  /-- `MSG` (R38). -/
  msg : Memory
  /-- `OUT` (R38). -/
  out : Memory
  /-- The Carrier Store `CS` (R44, 20_memory.md R70). -/
  carrier : Memory
  /-- The model's own: the turns still to come, first one first (notes/assumptions/2.md). -/
  schedule : List Turn
  /-- The model's own: what the host's reads returned, oldest first (notes/assumptions/15.md). -/
  reads : List Word
  /-- The model's own: what the adapter's reads returned, oldest first (notes/assumptions/15.md). -/
  saved : List Byte
  /-- The model's own: unspecified reads made so far (notes/assumptions/6.md). -/
  draws : Nat
  /-- The model's own: resets so far, so that each draws its buffer bytes anew (notes/assumptions/4.md). -/
  resets : Nat
  deriving DecidableEq, Repr

/-- Why a run of the model stops. The block itself never stops (60_exceptions.md R257). -/
inductive Fault where
  /-- Raised by an adapter access to the Carrier Store while BUSY, 20_memory.md R82 (`HOST_CARRIER_CONFLICT`). Safe:
  the spec gives the access no outcome. -/
  | hostCarrierConflict
  /-- Raised by an adapter access to `CS[k]` with `k` at or above `CAR_MAX`: there is no such byte, 20_memory.md R70.
  Safe. -/
  | carrierOutOfRange
  /-- Raised by HIDE's loop at a pixel at or above `N`: the assertion of 44_pack.md R196 (93 I8). Safe, and
  unreachable. -/
  | packPastCarrier
  deriving DecidableEq, Repr

/-- Why the model gives an instruction no meaning. Every instruction has one, so no step answers with it. -/
inductive Refusal where
  /-- Raised by an arm of `exec` that has no meaning yet. Safe. -/
  | notModelled (mnemonic : String)
  deriving DecidableEq, Repr

/-- The state after reset, for given parameters: the table of 10_state.md R45, with nothing written in the buffers
and nothing loaded in the Carrier Store, and the model's own fields empty. -/
def State.resetWith (p : Params) : State :=
  { params := p
    ctrl := { cipherEn := true, bitOrder := .msbFirst, irqEn := false }
    status :=
      { done := false, err := false, term := false, capOk := false, bwerr := false, errcode := 0#4 }
    width := 0#32
    height := 0#32
    pwdLen := 0#32
    msgLen := 0#32
    outLen := 0#32
    result := 0#32
    cursor := 0#32
    seq := .idle
    pwd := []
    msg := []
    out := []
    carrier := []
    schedule := []
    reads := []
    saved := []
    draws := 0
    resets := 0 }

/-- The state after reset (10_state.md R45), with the parameters of `Config.params` (notes/assumptions/1.md). -/
def State.reset : State := State.resetWith Config.params

end Sys2Proof.Machine
end

