-- ==== Sys2Proof/Machine/Flags.lean ====
section
/-! DEFINITION. The `CTRL` and `STATUS` words, and every computation of a `STATUS` bit (10_state.md R22 to R30, R43). -/

namespace Sys2Proof.Machine

/-- `CTRL.BIT_ORDER` as its bit (10_state.md R22). -/
def BitOrder.toBool : BitOrder → Bool
  | .msbFirst => false
  | .lsbFirst => true

/-- `CTRL.BIT_ORDER` from its bit (10_state.md R22). -/
def BitOrder.ofBool : Bool → BitOrder
  | false => .msbFirst
  | true => .lsbFirst

/-- What a read of `CTRL` returns (10_state.md R22). -/
def ctrlWord (c : Ctrl) : Word :=
  0#29 ++ BitVec.ofBool c.irqEn ++ BitVec.ofBool c.bitOrder.toBool ++ BitVec.ofBool c.cipherEn

/-- What a write of `v` stores in `CTRL`: bits 2:0 (10_state.md R22; reserved bits ignored, 20_memory.md R66). -/
def ctrlOfWord (v : Word) : Ctrl :=
  { cipherEn := v.getLsbD 0, bitOrder := BitOrder.ofBool (v.getLsbD 1), irqEn := v.getLsbD 2 }

/-- `STATUS.BUSY`: the sequencer is BUSY (10_state.md R25, R41). -/
def busy (s : State) : Bool :=
  match s.seq with
  | .idle => false
  | .busy _ _ => true

/-- What a read of `STATUS` returns, bit 31 down to bit 0 of the table of 10_state.md R24. -/
def statusWord (s : State) : Word :=
  0#20 ++ s.status.errcode ++ 0#2 ++ BitVec.ofBool s.status.bwerr ++ BitVec.ofBool s.status.capOk ++
    BitVec.ofBool s.status.term ++ BitVec.ofBool s.status.err ++ BitVec.ofBool s.status.done ++
    BitVec.ofBool (busy s)

/-- The interrupt output (10_state.md R43). -/
def irq (s : State) : Bool := s.status.done && s.ctrl.irqEn

/-- The number of an error code (60_exceptions.md R240). -/
def errorNumber : ErrorCode → BitVec 4
  | .capacity => 1#4
  | .capacityPack => 2#4
  | .illegalCmd => 3#4
  | .invalidArgument => 4#4

/-- The outcome bits at accept: all 0, `BWERR` unchanged (40_command.md R110). -/
def acceptFlags (st : Status) : Status :=
  { st with done := false, err := false, term := false, capOk := false, errcode := 0#4 }

/-- A host write of `v` to `STATUS`: it clears `DONE` and `BWERR` where `v` has a 1, and nothing else
(10_state.md R24). -/
def clearByOnes (v : Word) (st : Status) : Status :=
  { st with done := st.done && !v.getLsbD 1, bwerr := st.bwerr && !v.getLsbD 5 }

end Sys2Proof.Machine
end

