-- ==== Sys2Proof/Machine/Ops.lean ====
section
/-! DEFINITION. The named operations: byte arrays, the three buffers and the Carrier Store, accept, the end of a
command, and `raise` (this hardware's form of an exception: 60_exceptions.md R247, 40_command.md R116). -/

namespace Sys2Proof.Machine

/-- The listed value of an index, if it has been written. -/
def Memory.read? (m : Memory) (a : Nat) : Option Byte :=
  match m with
  | [] => none
  | c :: rest => if c.1 = a then some c.2 else Memory.read? rest a

/-- Write one byte, keeping the canonical form. -/
def Memory.write (m : Memory) (a : Nat) (v : Byte) : Memory :=
  match m with
  | [] => [(a, v)]
  | c :: rest =>
    if a < c.1 then (a, v) :: c :: rest
    else if a = c.1 then (a, v) :: rest
    else c :: Memory.write rest a v

/-- Write `f i` at each index `i` of a list, in order. -/
def storeBytes (f : Nat → Byte) : List Nat → Memory → Memory
  | [], m => m
  | i :: is, m => storeBytes f is (m.write i (f i))

/-- `PWD[i]`: the last byte written, or the draw of the last reset (10_state.md R38, R45). -/
def pwdByte (s : State) (i : Nat) : Byte := (s.pwd.read? i).getD (Config.resetPwd s.resets i)

/-- `MSG[i]`: the last byte written, or the draw of the last reset (10_state.md R38, R45). -/
def msgByte (s : State) (i : Nat) : Byte := (s.msg.read? i).getD (Config.resetMsg s.resets i)

/-- `OUT[i]`: the last byte written, or the draw of the last reset (10_state.md R38, R45). -/
def outByte (s : State) (i : Nat) : Byte := (s.out.read? i).getD (Config.resetOut s.resets i)

/-- `CSRead(k)` (20_memory.md R71): the last byte loaded or written, or the draw of R75. -/
def csRead (cs : Memory) (k : Nat) : Byte := (cs.read? k).getD (Config.unloadedCarrier k)

/-- `CSWrite(k, v)` (20_memory.md R71). -/
def csWrite (cs : Memory) (k : Nat) (v : Byte) : Memory := cs.write k v

/-- `CS[k]` of a state. -/
def carrierByte (s : State) (k : Nat) : Byte := csRead s.carrier k

/-- `pixel_write(k, b)`: bit 0 of `CS[k]` becomes `b`, bits 7:1 stay (44_pack.md R193). -/
def pixelWrite (cs : Memory) (k : Nat) (b : Bool) : Memory :=
  csWrite cs k ((csRead cs k &&& 0xFE#8) ||| (BitVec.ofBool b).setWidth 8)

/-- The operand registers as they stand. -/
def operandRegisters (s : State) : Operands :=
  { ctrl := s.ctrl, width := s.width, height := s.height, pwdLen := s.pwdLen, msgLen := s.msgLen }

/-- `accept(w)` (40_command.md R110). -/
def accept (w : Word) (s : State) : State :=
  { s with status := acceptFlags s.status, seq := .busy w (operandRegisters s) }

/-- `end()` (40_command.md R112): BUSY falls, DONE rises, the sequencer is IDLE. -/
def finish (s : State) : State :=
  { s with status := { s.status with done := true }, seq := .idle }

/-- `raise E` (40_command.md R116): the command ends as failed. -/
def raiseError (e : ErrorCode) (s : State) : State :=
  finish { s with status := { s.status with err := true, errcode := errorNumber e } }

end Sys2Proof.Machine
end

