-- ==== Sys2Proof/Machine/Operands.lean ====
section
/-! DEFINITION. The operands of a command: the sampled registers, the mask (41_cipher.md R130), the framed payload
(42_framer.md R150), the serial bit stream (44_pack.md R191, R192), the capacity (43_capacity.md R170, R171), and the
validation of 40_command.md R114. -/

namespace Sys2Proof.Machine

/-- The operand registers of the command in progress, as sampled at accept (40_command.md R110). With no command in
progress, those a command accepted now would sample (notes/assumptions/14.md). -/
def operands (s : State) : Operands :=
  match s.seq with
  | .idle => operandRegisters s
  | .busy _ held => held

/-- `Lp`, the password length (10_state.md R32). -/
def passwordLength (s : State) : Nat := (operands s).pwdLen.toNat

/-- `Lm`, the message length (10_state.md R32). -/
def messageLength (s : State) : Nat := (operands s).msgLen.toNat

/-- `N = W * H`, the exact product (43_capacity.md R170). -/
def capacity (s : State) : Nat := (operands s).width.toNat * (operands s).height.toNat

/-- `mask(i)` (41_cipher.md R130). -/
def maskByte (s : State) (i : Nat) : Byte :=
  if (operands s).ctrl.cipherEn = true ∧ 0 < passwordLength s then pwdByte s (i % passwordLength s) else 0x00#8

/-- `TERM` (00_scope.md R11). -/
def terminator : List Byte := [0x00#8, 0x00#8, 0x03#8]

/-- `FP[i]`, for `i < Lm + 3` (42_framer.md R150). -/
def framedByte (s : State) (i : Nat) : Byte :=
  if i < messageLength s then msgByte s i ^^^ maskByte s i
  else terminator.getD (i - messageLength s) 0x00#8

/-- `len(FP)` (42_framer.md R152). -/
def framedLength (s : State) : Nat := messageLength s + 3

/-- The stream length of the framed payload, in bits: `8 * (Lm + 3)` (44_pack.md R194). -/
def framedBits (s : State) : Nat := 8 * framedLength s

/-- `u[i]` of the message buffer (42_framer.md R154). -/
def unframedByte (s : State) (i : Nat) : Byte := msgByte s i ^^^ maskByte s i

/-- Stream bit `t` of one byte, `t` from 0 to 7: MSB_FIRST 44_pack.md R191, LSB_FIRST R192. -/
def bitOfByte (order : BitOrder) (b : Byte) (t : Nat) : Bool :=
  match order with
  | .msbFirst => b.getLsbD (7 - t)
  | .lsbFirst => b.getLsbD t

/-- `sbit(FP, j)` (44_pack.md R191, R192). -/
def streamBit (s : State) (j : Nat) : Bool :=
  bitOfByte (operands s).ctrl.bitOrder (framedByte s (j / 8)) (j % 8)

/-- `Lp <= PWD_MAX` (40_command.md R114). -/
abbrev pwdLenOk (s : State) : Prop := passwordLength s ≤ s.params.pwdMax

/-- `Lm <= MSG_MAX` (40_command.md R114). -/
abbrev msgLenOk (s : State) : Prop := messageLength s ≤ s.params.msgMax

/-- `W * H <= CAR_MAX` (40_command.md R114). -/
abbrev carrierOk (s : State) : Prop := capacity s ≤ s.params.carMax

/-- The capacity check passes: `8 * (Lm + 3) <= N` (43_capacity.md R171). -/
abbrev capacityOk (s : State) : Prop := framedBits s ≤ capacity s

/-- `valid(c)`: the table of 40_command.md R114. -/
def valid (i : Instr) (s : State) : Bool :=
  match i with
  | .nop => true
  | .hide => decide (pwdLenOk s) && decide (msgLenOk s) && decide (carrierOk s)
  | .showCmd => decide (pwdLenOk s) && decide (carrierOk s)
  | .chkcap => decide (msgLenOk s) && decide (carrierOk s)
  | .maskat _ => decide (pwdLenOk s)
  | .frame => decide (pwdLenOk s) && decide (msgLenOk s)
  | .unframe => decide (pwdLenOk s) && decide (msgLenOk s)

end Sys2Proof.Machine
end

