-- ==== Sys2Proof/Machine/Capacity.lean ====
section
/-! DEFINITION. CHKCAP (43_capacity.md R172). -/

namespace Sys2Proof.Machine

/-- CHKCAP (43_capacity.md R172): `CAP_OK <- 1`, or the error CAPACITY. -/
def execChkcap (s : State) : Host.Outcome State Fault Refusal :=
  if valid .chkcap s then
    if capacityOk s then .next (finish { s with status := { s.status with capOk := true } })
    else .next (raiseError .capacity s)
  else .next (raiseError .invalidArgument s)

end Sys2Proof.Machine
end

