-- ==== Sys2Proof/Machine/Cipher.lean ====
section
/-! DEFINITION. MASKAT (41_cipher.md section 2). -/

namespace Sys2Proof.Machine

/-- MASKAT (41_cipher.md R134): `RESULT <- zext_32(mask(index))`. -/
def execMaskat (index : Nat) (s : State) : Host.Outcome State Fault Refusal :=
  if valid (.maskat index) s then .next (finish { s with result := (maskByte s index).setWidth 32 })
  else .next (raiseError .invalidArgument s)

end Sys2Proof.Machine
end

