-- ==== Sys2Proof/Machine/Command.lean ====
section
/-! DEFINITION. NOP (40_command.md section 3). -/

namespace Sys2Proof.Machine

/-- NOP (40_command.md R117): `perform` is `skip`, and it makes no check (R114). -/
def execNop (s : State) : Host.Outcome State Fault Refusal := .next (finish s)

end Sys2Proof.Machine
end

