-- ==== Sys2Proof/Machine/Framer.lean ====
section
/-! DEFINITION. FRAME and UNFRAME (42_framer.md section 2). -/

namespace Sys2Proof.Machine

/-- FRAME (42_framer.md R155): `OUT[i] <- FP[i]` for `i < Lm + 3`, `OUT_LEN <- Lm + 3`. -/
def execFrame (s : State) : Host.Outcome State Fault Refusal :=
  if valid .frame s then
    .next (finish { s with
      out := storeBytes (framedByte s) (List.range (framedLength s)) s.out
      outLen := BitVec.ofNat 32 (framedLength s) })
  else .next (raiseError .invalidArgument s)

/-- UNFRAME (42_framer.md R156): `OUT[i] <- MSG[i] XOR mask(i)` for `i < Lm`, `OUT_LEN <- Lm`. -/
def execUnframe (s : State) : Host.Outcome State Fault Refusal :=
  if valid .unframe s then
    .next (finish { s with
      out := storeBytes (unframedByte s) (List.range (messageLength s)) s.out
      outLen := BitVec.ofNat 32 (messageLength s) })
  else .next (raiseError .invalidArgument s)

end Sys2Proof.Machine
end

