-- ==== Sys2Proof/Machine/Pack.lean ====
section
/-! DEFINITION. The bit packer and HIDE (44_pack.md), and what a reset leaves of a HIDE in progress
(70_reset_and_hazards.md R272). -/

namespace Sys2Proof.Machine

/-- The packer's loop (44_pack.md R195): stream bit `j` into pixel `j`, for each `j` of the list, in order. No result
when a pixel is at or above `limit`: the assertion of R196. -/
def packPixels (bitAt : Nat → Bool) (limit : Nat) : List Nat → Memory → Option Memory
  | [], cs => some cs
  | j :: js, cs => if j < limit then packPixels bitAt limit js (pixelWrite cs j (bitAt j)) else none

/-- HIDE (44_pack.md R195): the capacity check, then the stream bits of the framed payload into bit 0 of pixels
`0` to `8 * (Lm + 3) - 1`, then `CURSOR`. -/
def execHide (s : State) : Host.Outcome State Fault Refusal :=
  if valid .hide s then
    if capacityOk s then
      match packPixels (streamBit s) (capacity s) (List.range (framedBits s)) s.carrier with
      | some cs =>
        .next (finish { s with
          status := { s.status with capOk := true }
          carrier := cs
          cursor := BitVec.ofNat 32 (framedBits s) })
      | none => .fault .packPastCarrier
    else .next (raiseError .capacity s)
  else .next (raiseError .invalidArgument s)

/-- The pixels, in order, that a HIDE cut by a reset had written, when the draw is `written`: none at or above
`8 * (Lm + 3)`, and none for a HIDE that would have failed (70_reset_and_hazards.md R272, 40_command.md R113). -/
def cutPixels (written : List Nat) (s : State) : List Nat :=
  if valid .hide s = true ∧ capacityOk s then
    (List.range (framedBits s)).filter (fun j => decide (j ∈ written))
  else []

/-- The Carrier Store after a reset during a HIDE (70_reset_and_hazards.md R272): each drawn pixel holds the value the
HIDE would have given it, every other pixel its value from before. -/
def cutHide (written : List Nat) (s : State) : Memory :=
  (cutPixels written s).foldl (fun cs j => pixelWrite cs j (streamBit s j)) s.carrier

end Sys2Proof.Machine
end

