-- ==== Sys2Proof/Machine/Unpack.lean ====
section
/-! DEFINITION. The bit unpacker and SHOW (45_unpack.md). -/

namespace Sys2Proof.Machine

/-- The bit cursor of a SHOW (10_state.md R40), with the bytes completed so far: the loop state of 45_unpack.md
R214. It lives inside the one completion step (40_command.md R118; notes/assumptions/8.md). -/
structure Scan where
  /-- The next pixel to visit, and so the number of pixels read. -/
  k : Nat
  /-- The bit position within the current byte. -/
  bc : Nat
  /-- The byte being assembled. -/
  acc : Byte
  /-- The completed bytes; its length is the cursor's `n`, its last three the history `hist` (R42). -/
  buf : List Byte
  /-- The last three completed bytes are the terminator. -/
  found : Bool
  deriving DecidableEq, Repr

/-- The cursor as it starts (10_state.md R40). -/
def scanStart : Scan := { k := 0, bc := 0, acc := 0x00#8, buf := [], found := false }

/-- Add one bit to the byte being assembled (45_unpack.md R211, R214). -/
def addBit (order : BitOrder) (acc : Byte) (bc : Nat) (b : Bool) : Byte :=
  match order with
  | .msbFirst => (acc <<< 1) ||| (BitVec.ofBool b).setWidth 8
  | .lsbFirst => acc ||| ((BitVec.ofBool b).setWidth 8 <<< bc)

/-- The last three completed bytes are `TERM` (45_unpack.md R212). -/
def endsWithTerminator (buf : List Byte) : Bool :=
  decide (3 ≤ buf.length) && decide (buf.drop (buf.length - 3) = terminator)

/-- One turn of the loop of 45_unpack.md R214: read the bit `b` of pixel `k`. -/
def scanBit (order : BitOrder) (b : Bool) (c : Scan) : Scan :=
  if c.bc + 1 = 8 then
    { k := c.k + 1
      bc := 0
      acc := 0x00#8
      buf := c.buf ++ [addBit order c.acc c.bc b]
      found := endsWithTerminator (c.buf ++ [addBit order c.acc c.bc b]) }
  else { c with k := c.k + 1, bc := c.bc + 1, acc := addBit order c.acc c.bc b }

/-- The loop of 45_unpack.md R214 over at most the given number of pixels: it stops when the terminator is found. -/
def scanPixels (order : BitOrder) (bitAt : Nat → Bool) : Nat → Scan → Scan
  | 0, c => c
  | n + 1, c => if c.found then c else scanPixels order bitAt n (scanBit order (bitAt c.k) c)

/-- `b_k`, bit 0 of `CS[k]` (45_unpack.md R210). -/
def carrierBit (s : State) (k : Nat) : Bool := (carrierByte s k).getLsbD 0

/-- The whole scan of a SHOW: pixels `0` to `N - 1` (45_unpack.md R214). -/
def scanCarrier (s : State) : Scan :=
  scanPixels (operands s).ctrl.bitOrder (carrierBit s) (capacity s) scanStart

/-- `L`: the completed bytes, less the terminator when it was found (45_unpack.md R214). -/
def scanLength (c : Scan) : Nat := if c.found then c.buf.length - 3 else c.buf.length

/-- SHOW (45_unpack.md R214). -/
def execShow (s : State) : Host.Outcome State Fault Refusal :=
  if valid .showCmd s then
    let c := scanCarrier s
    .next (finish { s with
      out := storeBytes (fun i => c.buf.getD i 0x00#8 ^^^ maskByte s i) (List.range (scanLength c)) s.out
      outLen := BitVec.ofNat 32 (scanLength c)
      cursor := BitVec.ofNat 32 c.k
      status := { s.status with term := c.found } })
  else .next (raiseError .invalidArgument s)

end Sys2Proof.Machine
end

