-- ==== Sys2Proof/Machine/Dispatch.lean ====
section
/-! DEFINITION. One arm per command: what its completion does (40_command.md R112, after decode). -/

namespace Sys2Proof.Machine

def exec (i : Instr) (s : State) : Host.Outcome State Fault Refusal :=
  match i with
  | .nop => Sys2Proof.Machine.execNop s
  | .hide => Sys2Proof.Machine.execHide s
  | .showCmd => Sys2Proof.Machine.execShow s
  | .chkcap => Sys2Proof.Machine.execChkcap s
  | .maskat index => Sys2Proof.Machine.execMaskat index s
  | .frame => Sys2Proof.Machine.execFrame s
  | .unframe => Sys2Proof.Machine.execUnframe s

end Sys2Proof.Machine
end

