-- ==== Sys2Proof/Machine/Port.lean ====
section
/-! DEFINITION. The register port: address map, reads and writes (20_memory.md), and the carrier adapter's accesses to
the Carrier Store (20_memory.md R70, R82). -/

namespace Sys2Proof.Machine

/-- The control registers (20_memory.md R62). -/
inductive Reg where
  | id | ctrl | cmd | status | width | height | pwdLen | msgLen | outLen | result | cursor
  | carMax | msgMax | pwdMax | outMax
  deriving DecidableEq, Repr

/-- What a word address of the port names (20_memory.md R62, R63, R65). -/
inductive Target where
  | reg (r : Reg)
  /-- An existing entry of the PWD window. -/
  | pwd (i : Nat)
  /-- An existing entry of the MSG window. -/
  | msg (i : Nat)
  /-- An existing entry of the OUT window. -/
  | out (i : Nat)
  /-- No register and no existing window entry (20_memory.md R65). -/
  | unmapped
  deriving DecidableEq, Repr

/-- The register map (20_memory.md R62). -/
def regOffset : Reg → Nat
  | .id => 0x000
  | .ctrl => 0x004
  | .cmd => 0x008
  | .status => 0x00C
  | .width => 0x010
  | .height => 0x014
  | .pwdLen => 0x018
  | .msgLen => 0x01C
  | .outLen => 0x020
  | .result => 0x024
  | .cursor => 0x028
  | .carMax => 0x030
  | .msgMax => 0x034
  | .pwdMax => 0x038
  | .outMax => 0x03C

/-- Every control register. -/
def allRegs : List Reg :=
  [.id, .ctrl, .cmd, .status, .width, .height, .pwdLen, .msgLen, .outLen, .result, .cursor,
    .carMax, .msgMax, .pwdMax, .outMax]

/-- The first address of the PWD, MSG and OUT windows (20_memory.md R63). -/
def pwdWindow : Nat := 0x010000
def msgWindow : Nat := 0x100000
def outWindow : Nat := 0x200000

/-- The port address of a register. -/
def regAddr (r : Reg) : PortAddr := BitVec.ofNat 22 (regOffset r)

/-- The port address of entry `i` of a window (20_memory.md R63), modulo `2 ^ 22`. For an `i` past the end of the window
no entry is there to address; that the sum runs on is a DESIGN CHOICE (notes/assumptions/22.md). -/
def windowAddr (base i : Nat) : PortAddr := BitVec.ofNat 22 (base + 4 * i)

/-- What an address names. The port carries `A[21:2]` only (20_memory.md R60; notes/assumptions/11.md). -/
def target (p : Params) (addr : PortAddr) : Target :=
  let a := 4 * (addr.toNat / 4)
  match allRegs.find? (fun r => regOffset r == a) with
  | some r => .reg r
  | none =>
    if pwdWindow ≤ a ∧ a < 0x020000 then
      if (a - pwdWindow) / 4 < p.pwdMax then .pwd ((a - pwdWindow) / 4) else .unmapped
    else if msgWindow ≤ a ∧ a < 0x200000 then
      if (a - msgWindow) / 4 < p.msgMax then .msg ((a - msgWindow) / 4) else .unmapped
    else if outWindow ≤ a then
      if (a - outWindow) / 4 < p.outMax then .out ((a - outWindow) / 4) else .unmapped
    else .unmapped

/-- The value of a register as a host read returns it (20_memory.md R62; 10_state.md R22 to R37). -/
def regValue (s : State) : Reg → Word
  | .id => 0x4C534250#32
  | .ctrl => ctrlWord s.ctrl
  | .cmd => 0#32
  | .status => statusWord s
  | .width => s.width
  | .height => s.height
  | .pwdLen => s.pwdLen
  | .msgLen => s.msgLen
  | .outLen => s.outLen
  | .result => s.result
  | .cursor => s.cursor
  | .carMax => BitVec.ofNat 32 s.params.carMax
  | .msgMax => BitVec.ofNat 32 s.params.msgMax
  | .pwdMax => BitVec.ofNat 32 s.params.pwdMax
  | .outMax => BitVec.ofNat 32 s.params.outMax

/-- The value at a target: a window word is the byte with zeros above (20_memory.md R64), an unmapped word 0
(R65). -/
def targetValue (s : State) : Target → Word
  | .reg r => regValue s r
  | .pwd i => (pwdByte s i).setWidth 32
  | .msg i => (msgByte s i).setWidth 32
  | .out i => (outByte s i).setWidth 32
  | .unmapped => 0#32

/-- The targets whose value is unspecified while BUSY (20_memory.md R83). -/
def isOutput : Target → Bool
  | .reg .outLen => true
  | .reg .result => true
  | .reg .cursor => true
  | .out _ => true
  | .reg _ => false
  | .pwd _ => false
  | .msg _ => false
  | .unmapped => false

/-- The read of this address draws an unspecified value (20_memory.md R83). -/
def drawsValue (s : State) (addr : PortAddr) : Bool := busy s && isOutput (target s.params addr)

/-- What a host read returns: the value at the target, or while BUSY a fresh unspecified one for an output
(20_memory.md R64, R65, R80, R83). -/
def readValue (s : State) (addr : PortAddr) : Word :=
  if drawsValue s addr then Config.busyRead s.draws else targetValue s (target s.params addr)

/-- A host read: it changes no state of the block (20_memory.md R67). -/
def hostRead (addr : PortAddr) (s : State) : State :=
  { s with
    reads := s.reads ++ [readValue s addr]
    draws := if drawsValue s addr then s.draws + 1 else s.draws }

/-- A host write while IDLE, to a target other than `STATUS` (20_memory.md R64 to R67, 40_command.md R110). -/
def storeWord (t : Target) (v : Word) (s : State) : State :=
  match t with
  | .reg .ctrl => { s with ctrl := ctrlOfWord v }
  | .reg .cmd => accept v s
  | .reg .width => { s with width := v }
  | .reg .height => { s with height := v }
  | .reg .pwdLen => { s with pwdLen := v }
  | .reg .msgLen => { s with msgLen := v }
  | .pwd i => { s with pwd := s.pwd.write i (v.setWidth 8) }
  | .msg i => { s with msg := s.msg.write i (v.setWidth 8) }
  | .reg .id => s
  | .reg .status => s
  | .reg .outLen => s
  | .reg .result => s
  | .reg .cursor => s
  | .reg .carMax => s
  | .reg .msgMax => s
  | .reg .pwdMax => s
  | .reg .outMax => s
  | .out _ => s
  | .unmapped => s

/-- A host write. To `STATUS`: the W1C bits, BUSY or not (10_state.md R24). To anything else while BUSY: ignored, and
`BWERR` is set (R30, 40_command.md R111). -/
def hostWrite (addr : PortAddr) (v : Word) (s : State) : State :=
  if target s.params addr = .reg .status then { s with status := clearByOnes v s.status }
  else if busy s then { s with status := { s.status with bwerr := true } }
  else storeWord (target s.params addr) v s

/-- The adapter writes `CS[k]` (20_memory.md R70, R82, R87). -/
def carrierLoad (k : Nat) (v : Byte) (s : State) : Host.Outcome State Fault Refusal :=
  if busy s then .fault .hostCarrierConflict
  else if k < s.params.carMax then .next { s with carrier := csWrite s.carrier k v }
  else .fault .carrierOutOfRange

/-- The adapter reads `CS[k]` (20_memory.md R70, R82, R87). -/
def carrierSave (k : Nat) (s : State) : Host.Outcome State Fault Refusal :=
  if busy s then .fault .hostCarrierConflict
  else if k < s.params.carMax then .next { s with saved := s.saved ++ [carrierByte s k] }
  else .fault .carrierOutOfRange

end Sys2Proof.Machine
end

