-- ==== Sys2Proof/Machine/Turns.lean ====
section
/-! DEFINITION. What each turn does: completion (40_command.md R112), reset (70_reset_and_hazards.md section 1), and
the accesses of the host and the adapter. -/

namespace Sys2Proof.Machine

/-- `complete()` (40_command.md R112): decode the held word and run the command, or raise ILLEGAL_CMD. While IDLE the
sequencer has no step, and nothing changes. -/
def complete (s : State) : Host.Outcome State Fault Refusal :=
  match s.seq with
  | .idle => .next s
  | .busy w _ =>
    match decode w with
    | .ok i => exec i s
    | .error _ => .next (raiseError .illegalCmd s)

/-- The Carrier Store after a reset: unchanged, but for a HIDE in progress (70_reset_and_hazards.md R272, R273). -/
def carrierAfterReset (written : List Nat) (s : State) : Memory :=
  match s.seq with
  | .idle => s.carrier
  | .busy w _ => if decode w = .ok .hide then cutHide written s else s.carrier

/-- `RST` acts (70_reset_and_hazards.md R270): the block takes its reset state (10_state.md R45), the buffers a new
draw, and a command in progress is abandoned. The parameters are the machine's, and the schedule and the values
already read the outside world's. -/
def resetBlock (written : List Nat) (s : State) : State :=
  { State.resetWith s.params with
    carrier := carrierAfterReset written s
    schedule := s.schedule
    reads := s.reads
    saved := s.saved
    draws := s.draws
    resets := s.resets + 1 }

/-- One turn. -/
def takeTurn (t : Turn) (s : State) : Host.Outcome State Fault Refusal :=
  match t with
  | .hostRead addr => .next (hostRead addr s)
  | .hostWrite addr v => .next (hostWrite addr v s)
  | .carrierLoad k v => carrierLoad k v s
  | .carrierSave k => carrierSave k s
  | .reset written => .next (resetBlock written s)
  | .sequencer => complete s

/-- The next state's turn: the first of the schedule, or with none left the sequencer's, so that every accepted
command completes (40_command.md R112, 70_reset_and_hazards.md R284; notes/assumptions/2.md). -/
def nextTurn (s : State) : Host.Outcome State Fault Refusal :=
  match s.schedule with
  | [] => complete s
  | t :: rest => takeTurn t { s with schedule := rest }

/-- Stand a command word where the next step completes it: accepted, and the sequencer's turn next
(40_command.md R110; notes/assumptions/3.md). -/
def placeCommand (w : Word) (s : State) : State :=
  { accept w s with schedule := .sequencer :: s.schedule }

end Sys2Proof.Machine
end

