-- ==== Sys2Proof/Machine/Step.lean ====
section
/-! DEFINITION. One step of the machine, and how a command comes to run. -/

namespace Sys2Proof.Machine

/-- One step: the next turn (notes/assumptions/2.md). -/
def step (s : State) : Host.Outcome State Fault Refusal := nextTurn s

/-- `s` with a command word accepted and the sequencer's turn next, so that the next step runs exactly that command.
The block fetches nothing (10_state.md R21): a command comes from a host write to `CMD` (notes/assumptions/3.md). -/
def State.withFetchWord (s : State) (nbits w : Nat) : State := placeCommand (tableWord nbits w) s

end Sys2Proof.Machine
end

