-- ==== Sys2Proof/Machine/Program.lean ====
section
/-! DEFINITION. Host programs: the lines of 30_encoding.md R97 and the pseudo-instructions of R99, and their encoding
as turns (R98). -/

namespace Sys2Proof.Machine

/-- A line of a host program (30_encoding.md R97, R99). -/
inductive HostLine where
  /-- `wr ADDR, VALUE` -/
  | wr (addr : PortAddr) (value : Word)
  /-- `rd ADDR` -/
  | rd (addr : PortAddr)
  /-- `cmd MNEMONIC` -/
  | cmd (i : Instr)
  /-- `wait`, in a run where `polls` reads of `STATUS` still saw BUSY = 1 (notes/assumptions/18.md). -/
  | wait (polls : Nat)
  /-- `ack` -/
  | ack
  /-- `ldpwd`, with the host's byte form of the text (92_eei_decisions.md D9) -/
  | ldpwd (bytes : List Byte)
  /-- `ldmsg`, with the UTF-8 bytes of the text -/
  | ldmsg (bytes : List Byte)
  deriving DecidableEq, Repr

/-- `wr window[i], s[i]` for each byte, from entry `i` on (30_encoding.md R99). DESIGN CHOICE (notes/assumptions/22.md): a
text longer than its window goes on at the addresses after it. -/
def loadWindow (base : Nat) : Nat → List Byte → List Turn
  | _, [] => []
  | i, b :: bs => .hostWrite (windowAddr base i) (b.setWidth 32) :: loadWindow base (i + 1) bs

/-- The transactions of a line (30_encoding.md R98, R99). A `wait` also holds the sequencer's turn it waits for
(notes/assumptions/18.md). A length of `2 ^ 32` or more is written modulo `2 ^ 32` (22.md). -/
def HostLine.turns : HostLine → List Turn
  | .wr addr v => [.hostWrite addr v]
  | .rd addr => [.hostRead addr]
  | .cmd i => [.hostWrite (regAddr .cmd) (encode i)]
  | .wait polls =>
    List.replicate polls (.hostRead (regAddr .status)) ++ [.sequencer, .hostRead (regAddr .status)]
  | .ack => [.hostWrite (regAddr .status) 0x00000002#32]
  | .ldpwd bytes =>
    loadWindow pwdWindow 0 bytes ++ [.hostWrite (regAddr .pwdLen) (BitVec.ofNat 32 bytes.length)]
  | .ldmsg bytes =>
    loadWindow msgWindow 0 bytes ++ [.hostWrite (regAddr .msgLen) (BitVec.ofNat 32 bytes.length)]

/-- A host program's turns (30_encoding.md R98). -/
def programTurns (lines : List HostLine) : List Turn := (lines.map HostLine.turns).flatten

end Sys2Proof.Machine
end

