-- ==== Sys2Proof/Machine/Timing.lean ====
section
/-! DEFINITION. The reference work counts of 70_reset_and_hazards.md R285, which no step reads: they are not cycle
counts, and no rule depends on them. -/

namespace Sys2Proof.Machine

/-- The units of a command accepted in `s` that completed in `t` (70_reset_and_hazards.md R285). -/
def workUnits (i : Instr) (s t : State) : Nat :=
  if t.status.err then 1
  else
    match i with
    | .nop => 1
    | .maskat _ => 1
    | .chkcap => 1
    | .frame => messageLength s + 3
    | .unframe => max 1 (messageLength s)
    | .hide => 8 * (messageLength s + 3)
    | .showCmd => max 1 (t.cursor.toNat + t.outLen.toNat)

end Sys2Proof.Machine
end

