-- ==== Sys2Proof/Safety.lean ====
section
/-! DEFINITION. The terms in which claims are made: the invariant of the machine, the end of a run
(70_reset_and_hazards.md R286), and the declarative reading of a carrier's bytes (45_unpack.md R211, R212). -/

namespace Sys2Proof.Machine

/-- Every listed index of a byte array is below its size. -/
abbrev Memory.below (m : Memory) (size : Nat) : Prop := ∀ c ∈ m, c.1 < size

/-- The outcome bits while a command is in progress, as accept left them (20_memory.md R83). -/
abbrev outcomeClear (st : Status) : Prop :=
  st.done = false ∧ st.err = false ∧ st.term = false ∧ st.capOk = false ∧ st.errcode = 0#4

/-- The machine's invariant: what the spec says of every reachable state. -/
structure Inv (s : State) : Prop where
  /-- The parameters are in their ranges (00_scope.md R6 to R9). -/
  params_legal : s.params.legal
  /-- The byte arrays are in canonical form. -/
  pwd_wf : s.pwd.wf
  msg_wf : s.msg.wf
  out_wf : s.out.wf
  carrier_wf : s.carrier.wf
  /-- No entry beyond a buffer or the Carrier Store exists (10_state.md R38, 20_memory.md R70). -/
  pwd_below : s.pwd.below s.params.pwdMax
  msg_below : s.msg.below s.params.msgMax
  out_below : s.out.below s.params.outMax
  carrier_below : s.carrier.below s.params.carMax
  /-- While BUSY the held operands equal the registers (10_state.md R41). -/
  held_eq : ∀ w held, s.seq = .busy w held → held = operandRegisters s
  /-- While BUSY the outcome bits are 0 (20_memory.md R83; 10_state.md R26: DONE implies not BUSY). -/
  busy_clear : busy s = true → outcomeClear s.status
  /-- ERR = 0 if and only if ERRCODE = 0 (10_state.md R27). -/
  err_iff : s.status.err = true ↔ s.status.errcode ≠ 0#4
  /-- Codes 2 and 5 to 15 are never produced (60_exceptions.md R240, R242; 93 I9). -/
  errcode_mem : s.status.errcode ∈ [0#4, 1#4, 3#4, 4#4]
  /-- RESULT's bits 31:8 are 0 (10_state.md R34). -/
  result_lt : s.result.toNat < 256
  /-- The valid bytes of OUT fit in OUT (42_framer.md R155, 45_unpack.md R214). -/
  outLen_le : s.outLen.toNat ≤ s.params.outMax
  /-- No command visits more pixels than the largest carrier has (10_state.md R36). -/
  cursor_le : s.cursor.toNat ≤ s.params.carMax

/-- The run has ended: the host has made its last transaction and BUSY = 0 (70_reset_and_hazards.md R286). -/
abbrev runEnded (s : State) : Prop := s.schedule = [] ∧ busy s = false

/-- The observed final state of a run (70_reset_and_hazards.md R286): registers, buffers, Carrier Store. The count of
resets fixes the draws that unlisted buffer entries hold. -/
structure Observed where
  regs : List Word
  pwd : Memory
  msg : Memory
  out : Memory
  carrier : Memory
  resets : Nat
  deriving DecidableEq, Repr

/-- What is observed of a state (70_reset_and_hazards.md R286). -/
def observe (s : State) : Observed :=
  { regs := allRegs.map (regValue s)
    pwd := s.pwd
    msg := s.msg
    out := s.out
    carrier := s.carrier
    resets := s.resets }

/-- An access to the register port (20_memory.md R61). -/
def Turn.isPortAccess : Turn → Bool
  | .hostRead _ => true
  | .hostWrite _ _ => true
  | .carrierLoad _ _ => false
  | .carrierSave _ => false
  | .reset _ => false
  | .sequencer => false

/-- The sequencer moves next, and `rest` is the schedule after it: its turn stands first, or no turn is left
(notes/assumptions/2.md). -/
abbrev sequencerNext (s : State) (rest : List Turn) : Prop :=
  s.schedule = .sequencer :: rest ∨ (s.schedule = [] ∧ rest = [])

/-- The weight of stream bit `t` in its byte, as a power of two (45_unpack.md R211). -/
def bitWeight (order : BitOrder) (t : Nat) : Nat :=
  match order with
  | .msbFirst => 7 - t
  | .lsbFirst => t

/-- `byte_m`, the sum of 45_unpack.md R211 over the eight pixels from `8 * m`. -/
def completedByte (s : State) (m : Nat) : Byte :=
  BitVec.ofNat 8
    (((List.range 8).map
      (fun t => (carrierBit s (8 * m + t)).toNat <<< bitWeight (operands s).ctrl.bitOrder t)).sum)

/-- After byte `m` completes, the last three completed bytes are the terminator (45_unpack.md R212). -/
abbrev terminatorEndsAt (s : State) (m : Nat) : Prop :=
  2 ≤ m ∧ completedByte s (m - 2) = 0x00#8 ∧ completedByte s (m - 1) = 0x00#8 ∧ completedByte s m = 0x03#8

/-- The framed payload has the bytes `00 00 03` from byte `p` on (45_unpack.md R217). -/
abbrev framedTerminatorAt (s : State) (p : Nat) : Prop :=
  framedByte s p = 0x00#8 ∧ framedByte s (p + 1) = 0x00#8 ∧ framedByte s (p + 2) = 0x03#8

end Sys2Proof.Machine
end

