-- ==== Sys2Proof/Certificates/Slice0/Obligations.lean ====
section
/-! DEFINITION. The statements for the provers, one `def Obligations.<Name> : Prop` each; OBLIGATIONS.json lists them. -/

open Sys2Proof Sys2Proof.Machine

/-! ### The command word (30_encoding.md) -/

/-- Words written out from the table of 30_encoding.md R93 and the examples of R98 and 95_test_vectors.md L3 to L6, M6:
what they decode to. -/
def Obligations.SampleWordsDecodeAsTheTableSays : Prop :=
  decode 0x00000000#32 = .ok .nop ∧ decode 0x00000001#32 = .ok .hide ∧ decode 0x00000002#32 = .ok .showCmd ∧
  decode 0x00000003#32 = .ok .chkcap ∧ decode 0x00000504#32 = .ok (.maskat 5) ∧
  decode 0xFFFFFF04#32 = .ok (.maskat 0xFFFFFF) ∧ decode 0x00000005#32 = .ok .frame ∧
  decode 0x00000006#32 = .ok .unframe ∧ decode 0x00000007#32 = .error (.reservedOpcode 0x07#8) ∧
  decode 0x000000FF#32 = .error (.reservedOpcode 0xFF#8) ∧
  decode 0x00000100#32 = .error (.operandNotZero 0x00#8 1#24) ∧
  decode 0x80000002#32 = .error (.operandNotZero 0x02#8 0x800000#24)

/-- Decoding the word of a command gives the command back, MASKAT with every index a word can spell. -/
def Obligations.DecodeOfEncodeIsTheCommand : Prop :=
  ∀ i : Instr, i.wellFormed = true → decode (encode i) = .ok i

/-- A word that decodes is the word of its command, and the command can be spelled: each word has one meaning. -/
def Obligations.DecodedWordIsItsCommandsWord : Prop :=
  ∀ (w : Word) (i : Instr), decode w = .ok i → i.wellFormed = true ∧ encode i = w

/-- 30_encoding.md R93, R96: the seven commands by exact match, MASKAT by its low byte with the index above it, and
every other word illegal. -/
def Obligations.EveryWordIsACommandOrIllegal : Prop :=
  ∀ w : Word,
    (w.toNat % 256 = 4 → decode w = .ok (.maskat (w.toNat / 256))) ∧
    (w.toNat = 0 → decode w = .ok .nop) ∧ (w.toNat = 1 → decode w = .ok .hide) ∧
    (w.toNat = 2 → decode w = .ok .showCmd) ∧ (w.toNat = 3 → decode w = .ok .chkcap) ∧
    (w.toNat = 5 → decode w = .ok .frame) ∧ (w.toNat = 6 → decode w = .ok .unframe) ∧
    (w.toNat % 256 ≠ 4 → 6 < w.toNat → ∃ e, decode w = .error e)

/-! ### The command lifecycle (40_command.md) -/

/-- When the sequencer moves next and the held word decodes to `i`, the step is `exec i`, with nothing around it but
the schedule moving on (the model's own, notes/assumptions/2.md). -/
def Obligations.StepRunsTheDecodedCommand : Prop :=
  ∀ (s : State) (w : Word) (held : Operands) (i : Instr) (rest : List Turn),
    s.seq = .busy w held → decode w = .ok i → sequencerNext s rest →
      step s = exec i { s with schedule := rest }

/-- 60_exceptions.md R243: a word that does not decode completes as a failed command, code 3, and nothing but STATUS
changes (the schedule is the model's own). -/
def Obligations.IllegalWordCompletesWithCodeThree : Prop :=
  ∀ (s : State) (w : Word) (held : Operands) (e : DecodeError) (rest : List Turn),
    s.seq = .busy w held → decode w = .error e → sequencerNext s rest →
      step s = .next { s with
        schedule := rest
        seq := .idle
        status := { s.status with done := true, err := true, errcode := 3#4 } }

/-- 40_command.md R110: a host write to offset 0x008 while IDLE accepts any word. -/
def Obligations.CommandWriteWhileIdleAccepts : Prop :=
  ∀ (s : State) (w : Word) (rest : List Turn),
    busy s = false → s.schedule = .hostWrite 0x008#22 w :: rest →
      step s = .next { s with
        schedule := rest
        seq := .busy w
          { ctrl := s.ctrl, width := s.width, height := s.height, pwdLen := s.pwdLen, msgLen := s.msgLen }
        status :=
          { done := false, err := false, term := false, capOk := false, bwerr := s.status.bwerr, errcode := 0#4 } }

/-- 40_command.md R111: while BUSY every host write except one to STATUS (word address 3) changes nothing but
`BWERR`, which it sets; the command in progress and all its operands stay. -/
def Obligations.HostWriteWhileBusyOnlySetsBwerr : Prop :=
  ∀ (s : State) (addr : PortAddr) (v : Word) (rest : List Turn),
    busy s = true → addr.toNat / 4 ≠ 3 → s.schedule = .hostWrite addr v :: rest →
      step s = .next { s with schedule := rest, status := { s.status with bwerr := true } }

/-- 10_state.md section 2: a write to STATUS, BUSY or not, clears DONE where bit 1 is set and BWERR where bit 5 is, and
changes nothing else. -/
def Obligations.StatusWriteClearsOnlyDoneAndBwerr : Prop :=
  ∀ (s : State) (v : Word) (rest : List Turn),
    s.schedule = .hostWrite 0x00C#22 v :: rest →
      step s = .next { s with
        schedule := rest
        status := { s.status with
          done := if v.getLsbD 1 then false else s.status.done
          bwerr := if v.getLsbD 5 then false else s.status.bwerr } }

/-- 40_command.md R112, 10_state.md R25, R26: whatever word is held, the sequencer's step answers a next state in which
the block is IDLE with DONE set. No command hangs, and none stops the machine. -/
def Obligations.CompletionAlwaysEndsTheCommand : Prop :=
  ∀ (s : State) (rest : List Turn), busy s = true → sequencerNext s rest →
    ∃ t, step s = .next t ∧ busy t = false ∧ t.status.done = true ∧ t.schedule = rest

/-- 40_command.md R113: a command that ends with ERR, whatever its word, has changed nothing but STATUS and the sequencer
(and the schedule, the model's own). -/
def Obligations.FailedCommandChangesOnlyStatus : Prop :=
  ∀ (s t : State) (rest : List Turn), busy s = true → sequencerNext s rest → s.status.err = false →
    step s = .next t → t.status.err = true →
      t = { s with
        schedule := rest
        seq := .idle
        status := { s.status with done := true, err := true, errcode := t.status.errcode } }

/-- 40_command.md R114: the three checks, the commands that make them, and INVALID_ARGUMENT (code 4) when one is false,
whether or not the cipher is on and whatever the capacity; a command whose checks hold does not report code 4. -/
def Obligations.OperandRangeChecksAsTheTableSays : Prop :=
  ∀ (i : Instr) (s : State),
    let lpOk : Prop := (operands s).pwdLen.toNat ≤ s.params.pwdMax
    let lmOk : Prop := (operands s).msgLen.toNat ≤ s.params.msgMax
    let carOk : Prop := (operands s).width.toNat * (operands s).height.toNat ≤ s.params.carMax
    let allHold : Prop :=
      match i with
      | .nop => True
      | .hide => lpOk ∧ lmOk ∧ carOk
      | .showCmd => lpOk ∧ carOk
      | .chkcap => lmOk ∧ carOk
      | .maskat _ => lpOk
      | .frame => lpOk ∧ lmOk
      | .unframe => lpOk ∧ lmOk
    (¬ allHold → exec i s = .next { s with
      seq := .idle
      status := { s.status with done := true, err := true, errcode := 4#4 } }) ∧
    (allHold → s.status.errcode = 0#4 → ∃ t, exec i s = .next t ∧ t.status.errcode ≠ 4#4)

/-- 43_capacity.md R171, 60_exceptions.md R241: HIDE and CHKCAP whose operands are in range and whose framed payload
needs more bits than `W * H` end with CAPACITY (code 1); no carrier byte, and nothing but STATUS, changes. -/
def Obligations.CapacityErrorWhenPayloadTooLong : Prop :=
  ∀ (i : Instr) (s : State), i = .hide ∨ i = .chkcap → valid i s = true →
    (operands s).width.toNat * (operands s).height.toNat < 8 * ((operands s).msgLen.toNat + 3) →
      exec i s = .next { s with
        seq := .idle
        status := { s.status with done := true, err := true, errcode := 1#4 } }

/-- What each command may change at all (10_state.md R28, R29, R33, R34, R36, R38): no command writes an operand
register, PWD, MSG, BWERR, a parameter or the model's own fields; only FRAME, UNFRAME and SHOW write OUT and OUT_LEN,
only MASKAT RESULT, only HIDE and SHOW CURSOR, only HIDE the Carrier Store, only SHOW TERM, only HIDE and CHKCAP
CAP_OK. -/
def Obligations.EachCommandWritesOnlyItsOutputs : Prop :=
  ∀ (i : Instr) (s t : State), exec i s = .next t →
    (operandRegisters t = operandRegisters s ∧ t.params = s.params ∧ t.pwd = s.pwd ∧ t.msg = s.msg ∧
      t.status.bwerr = s.status.bwerr ∧ t.schedule = s.schedule ∧ t.reads = s.reads ∧ t.saved = s.saved ∧
      t.draws = s.draws ∧ t.resets = s.resets) ∧
    (i ≠ .frame → i ≠ .unframe → i ≠ .showCmd → t.out = s.out ∧ t.outLen = s.outLen) ∧
    ((∀ k, i ≠ .maskat k) → t.result = s.result) ∧
    (i ≠ .hide → i ≠ .showCmd → t.cursor = s.cursor) ∧
    (i ≠ .hide → t.carrier = s.carrier) ∧
    (i ≠ .showCmd → t.status.term = s.status.term) ∧
    (i ≠ .hide → i ≠ .chkcap → t.status.capOk = s.status.capOk)

/-- 40_command.md R112, R118, R111: any number of host reads and writes of the port may come before completion, and the
outcome is that of completing at once: same registers, buffers, Carrier Store and outcome bits. Only BWERR, what the
host's reads returned, and the count of draws may differ; the last two are the model's own (notes/assumptions/15.md,
6.md), and so is the schedule that says how many accesses come (2.md). -/
def Obligations.HostAccessesWhileBusyDoNotChangeTheOutcome : Prop :=
  ∀ s : State, busy s = true → (∀ t ∈ s.schedule, t.isPortAccess = true) →
    ∃ now later : State,
      step { s with schedule := [] } = .next now ∧
      Host.Core.run core (s.schedule.length + 1) s = .next later ∧
      ∃ reads draws bwerr,
        later = { now with
          reads := reads
          draws := draws
          status := { now.status with bwerr := bwerr } }

/-- 30_encoding.md R99: the lines `cmd i` and `wait` from an IDLE block run the command: each of the `n` polls made
before completion reads STATUS as accept left it, BUSY set, and the last one reads the outcome. That a `wait` is `n`
polls, the sequencer's turn and a last read is the model's choice (notes/assumptions/18.md), R99 giving a loop. -/
def Obligations.CommandThenWaitRunsTheCommand : Prop :=
  ∀ (s : State) (i : Instr) (n : Nat), busy s = false → i.wellFormed = true →
    s.schedule = programTurns [.cmd i, .wait n] →
      ∃ accepted done : State,
        accepted = accept (encode i) { s with schedule := [] } ∧ exec i accepted = .next done ∧
        (statusWord accepted).getLsbD 0 = true ∧ (statusWord done).getLsbD 0 = false ∧
        Host.Core.run core (n + 3) s = .next { done with
          reads := s.reads ++ List.replicate n (statusWord accepted) ++ [statusWord done] }

/-! ### The commands (40 to 45) -/

/-- 40_command.md R117: NOP changes nothing but BUSY and DONE. -/
def Obligations.NopOnlySetsDone : Prop :=
  ∀ s : State, exec .nop s = .next { s with seq := .idle, status := { s.status with done := true } }

/-- 41_cipher.md R130, R134: MASKAT leaves `PWD[index mod Lp]` in RESULT when the cipher is on and `Lp > 0`, 0 otherwise,
zero-extended, and changes nothing else but the end of the command. -/
def Obligations.MaskatReturnsTheMaskByte : Prop :=
  ∀ (s : State) (index : Nat), (operands s).pwdLen.toNat ≤ s.params.pwdMax →
    exec (.maskat index) s = .next { s with
      seq := .idle
      status := { s.status with done := true }
      result :=
        if (operands s).ctrl.cipherEn = true ∧ (operands s).pwdLen.toNat ≠ 0 then
          (pwdByte s (index % (operands s).pwdLen.toNat)).setWidth 32
        else 0#32 }

/-- 41_cipher.md section 1: the mask depends on the index, the first `Lp` password bytes, `Lp` and `CIPHER_EN` alone,
and repeats with period `Lp`. -/
def Obligations.MaskDependsOnlyOnThePassword : Prop :=
  ∀ s s' : State, (operands s).ctrl.cipherEn = (operands s').ctrl.cipherEn →
    (operands s).pwdLen = (operands s').pwdLen →
    (∀ i, i < (operands s).pwdLen.toNat → pwdByte s i = pwdByte s' i) →
      ∀ i, maskByte s i = maskByte s' i ∧ maskByte s (i + (operands s).pwdLen.toNat) = maskByte s i

/-- 42_framer.md R150, R151, R152, R155: FRAME writes the framed payload, the masked message and then the unmasked
`00 00 03` whatever the password and the cipher setting; `OUT_LEN` is `Lm + 3`; every later entry of OUT and everything
else stays. -/
def Obligations.FrameWritesMaskedMessageAndTerminator : Prop :=
  ∀ s : State, pwdLenOk s → msgLenOk s →
    ∃ t, exec .frame s = .next t ∧
      t = { s with
        seq := .idle
        status := { s.status with done := true }
        out := t.out
        outLen := BitVec.ofNat 32 ((operands s).msgLen.toNat + 3) } ∧
      (∀ i, i < (operands s).msgLen.toNat → outByte t i = msgByte s i ^^^ maskByte s i) ∧
      outByte t (operands s).msgLen.toNat = 0x00#8 ∧
      outByte t ((operands s).msgLen.toNat + 1) = 0x00#8 ∧
      outByte t ((operands s).msgLen.toNat + 2) = 0x03#8 ∧
      (∀ i, i < (operands s).msgLen.toNat + 3 → outByte t i = framedByte s i) ∧
      (∀ i, (operands s).msgLen.toNat + 3 ≤ i → outByte t i = outByte s i)

/-- 42_framer.md R154, R156: UNFRAME writes the message buffer unmasked, appends and looks for no terminator, `OUT_LEN`
is `Lm`, every later entry of OUT and everything else stays. -/
def Obligations.UnframeWritesUnmaskedMessage : Prop :=
  ∀ s : State, pwdLenOk s → msgLenOk s →
    ∃ t, exec .unframe s = .next t ∧
      t = { s with
        seq := .idle
        status := { s.status with done := true }
        out := t.out
        outLen := (operands s).msgLen } ∧
      (∀ i, i < (operands s).msgLen.toNat → outByte t i = msgByte s i ^^^ maskByte s i) ∧
      (∀ i, (operands s).msgLen.toNat ≤ i → outByte t i = outByte s i)

/-- 42_framer.md section 1: unframing the message part of what FRAME wrote gives the message back, in any later state
that holds those bytes in MSG under the same password, length and cipher setting. -/
def Obligations.UnframeAfterFrameGivesTheMessage : Prop :=
  ∀ s t s' : State, pwdLenOk s → msgLenOk s → exec .frame s = .next t →
    s'.params = s.params → (operands s').pwdLen = (operands s).pwdLen →
    (operands s').msgLen = (operands s).msgLen →
    (operands s').ctrl.cipherEn = (operands s).ctrl.cipherEn →
    (∀ i, i < (operands s).pwdLen.toNat → pwdByte s' i = pwdByte s i) →
    (∀ i, i < (operands s).msgLen.toNat → msgByte s' i = outByte t i) →
      ∃ t', exec .unframe s' = .next t' ∧ t'.outLen = (operands s).msgLen ∧
        ∀ i, i < (operands s).msgLen.toNat → outByte t' i = msgByte s i

/-- 43_capacity.md R172, R173: CHKCAP passes and sets CAP_OK exactly when `8 * (Lm + 3) <= W * H`, as exact integers: at
equality it passes, one bit less and it ends with CAPACITY (code 1); it changes nothing else but the end of the
command. -/
def Obligations.ChkcapPassesExactlyWhenPayloadFits : Prop :=
  ∀ s : State, msgLenOk s → carrierOk s →
    exec .chkcap s = .next
      (if 8 * ((operands s).msgLen.toNat + 3) ≤ (operands s).width.toNat * (operands s).height.toNat then
        { s with
          seq := .idle
          status := { s.status with done := true, capOk := true } }
      else
        { s with
          seq := .idle
          status := { s.status with done := true, err := true, errcode := 1#4 } })

/-- 44_pack.md R190 to R195: HIDE puts stream bit `j` of the framed payload, most-significant bit of each byte first or
least-significant first as BIT_ORDER says, into bit 0 of `CS[j]` for `j < 8 * (Lm + 3)`, keeps bits 7:1, leaves every
other pixel, sets CAP_OK and CURSOR, and changes nothing else. -/
def Obligations.HideWritesTheStreamIntoTheLowBits : Prop :=
  ∀ s : State, pwdLenOk s → msgLenOk s → carrierOk s →
    8 * ((operands s).msgLen.toNat + 3) ≤ (operands s).width.toNat * (operands s).height.toNat →
    ∃ t, exec .hide s = .next t ∧
      t = { s with
        seq := .idle
        status := { s.status with done := true, capOk := true }
        carrier := t.carrier
        cursor := BitVec.ofNat 32 (8 * ((operands s).msgLen.toNat + 3)) } ∧
      (∀ j, j < 8 * ((operands s).msgLen.toNat + 3) →
        (carrierByte t j).getLsbD 0 =
            (match (operands s).ctrl.bitOrder with
            | .msbFirst => (framedByte s (j / 8)).getLsbD (7 - j % 8)
            | .lsbFirst => (framedByte s (j / 8)).getLsbD (j % 8)) ∧
          ∀ b, 1 ≤ b → (carrierByte t j).getLsbD b = (carrierByte s j).getLsbD b) ∧
      (∀ k, 8 * ((operands s).msgLen.toNat + 3) ≤ k → carrierByte t k = carrierByte s k)

/-- 44_pack.md R193, R194, 40_command.md R113: whatever the outcome of a HIDE, bits 7:1 of every pixel and the whole of
every pixel at or above `8 * (Lm + 3)` read as before. -/
def Obligations.HideKeepsUpperBitsAndLaterPixels : Prop :=
  ∀ s t : State, exec .hide s = .next t → ∀ k,
    (∀ b, 1 ≤ b → (carrierByte t k).getLsbD b = (carrierByte s k).getLsbD b) ∧
    (8 * ((operands s).msgLen.toNat + 3) ≤ k → carrierByte t k = carrierByte s k)

/-- 60_exceptions.md R242, 44_pack.md R196: the carrier is never exhausted while HIDE packs, so the model's assertion
cannot fail, and no step of any agent ever reports code 2. -/
def Obligations.HideNeverExhaustsTheCarrier : Prop :=
  (∀ s f, exec .hide s ≠ .fault f) ∧
  (∀ s t, s.status.errcode ≠ 2#4 → step s = .next t → t.status.errcode ≠ 2#4)

/-- 45_unpack.md R210 to R215: a SHOW whose carrier's first terminator ends at completed byte `m` (the bytes summed from
the pixels as R211 says) writes completed bytes `0` to `m - 3`, unmasked, leaves the rest of OUT, and reports `OUT_LEN`,
`CURSOR` and TERM; nothing else changes. -/
def Obligations.ShowStopsAtTheFirstTerminator : Prop :=
  ∀ (s : State) (m : Nat), pwdLenOk s → carrierOk s →
    8 * (m + 1) ≤ (operands s).width.toNat * (operands s).height.toNat →
    terminatorEndsAt s m → (∀ m', m' < m → ¬ terminatorEndsAt s m') →
    ∃ t, exec .showCmd s = .next t ∧
      t = { s with
        seq := .idle
        status := { s.status with done := true, term := true }
        out := t.out
        outLen := BitVec.ofNat 32 (m - 2)
        cursor := BitVec.ofNat 32 (8 * (m + 1)) } ∧
      (∀ i, i < m - 2 → outByte t i = completedByte s i ^^^ maskByte s i) ∧
      (∀ i, m - 2 ≤ i → outByte t i = outByte s i)

/-- 45_unpack.md R213: a SHOW whose carrier holds no terminator returns every completed byte, unmasked, drops the last
`N mod 8` bits, and reports `CURSOR = N` and TERM = 0; no error. -/
def Obligations.ShowWithoutTerminatorReturnsEveryByte : Prop :=
  ∀ s : State, pwdLenOk s → carrierOk s →
    let n := (operands s).width.toNat * (operands s).height.toNat
    (∀ m, 8 * (m + 1) ≤ n → ¬ terminatorEndsAt s m) →
    ∃ t, exec .showCmd s = .next t ∧
      t = { s with
        seq := .idle
        status := { s.status with done := true, term := false }
        out := t.out
        outLen := BitVec.ofNat 32 (n / 8)
        cursor := BitVec.ofNat 32 n } ∧
      (∀ i, i < n / 8 → outByte t i = completedByte s i ^^^ maskByte s i) ∧
      (∀ i, n / 8 ≤ i → outByte t i = outByte s i)

/-- 45_unpack.md R215, R210: whatever the outcome of a SHOW, no carrier byte changes, and `OUT[i]` for `i >= OUT_LEN`
keeps its value; after a failed one all of OUT does. -/
def Obligations.ShowWritesOutOnlyBelowOutLen : Prop :=
  ∀ s t : State, s.params.legal → s.status.err = false → exec .showCmd s = .next t →
    t.carrier = s.carrier ∧
    (t.status.err = false → ∀ i, t.outLen.toNat ≤ i → outByte t i = outByte s i) ∧
    (t.status.err = true → t.out = s.out)

/-- 45_unpack.md R216: two SHOWs of the same carrier that differ in the password, its length and the cipher setting end
alike in OUT_LEN, CURSOR, TERM and ERR; neither fails; and their output bytes differ by the two masks alone. -/
def Obligations.WrongPasswordStillFindsTheTerminator : Prop :=
  ∀ s s' : State, pwdLenOk s → pwdLenOk s' → carrierOk s → s'.params = s.params →
    (operands s').width = (operands s).width → (operands s').height = (operands s).height →
    (operands s').ctrl.bitOrder = (operands s).ctrl.bitOrder → s'.carrier = s.carrier →
    s'.status = s.status →
      ∃ t t', exec .showCmd s = .next t ∧ exec .showCmd s' = .next t' ∧
        t'.outLen = t.outLen ∧ t'.cursor = t.cursor ∧ t'.status = t.status ∧ t.status.err = s.status.err ∧
        ∀ i, i < t.outLen.toNat → outByte t' i = outByte t i ^^^ maskByte s i ^^^ maskByte s' i

/-- 20_memory.md R72, 70_reset_and_hazards.md section 2: a command sees only the product `W * H`: with any other width and
height of the same product, in the registers and in the copies held since accept alike, it ends in the same state but for
WIDTH and HEIGHT, which keep what they held. -/
def Obligations.OnlyTheProductOfWidthAndHeightMatters : Prop :=
  ∀ (i : Instr) (s t : State) (word : Word) (held : Operands) (w h : Word), s.seq = .busy word held →
    w.toNat * h.toNat = held.width.toNat * held.height.toNat → exec i s = .next t →
      exec i { s with width := w, height := h, seq := .busy word { held with width := w, height := h } } =
        .next { t with width := w, height := h }

/-- 45_unpack.md R218, 70_reset_and_hazards.md R275: a SHOW of a carrier whose first `8 * (Lm + 3)` pixels are as a HIDE
left them, with the same bit order, cipher setting and password, on a carrier of at least that many pixels, gives the
hidden message back, unless the ciphered message holds the terminator's bytes (R217). -/
def Obligations.ShowAfterHideGivesTheMessage : Prop :=
  ∀ s t s' : State, pwdLenOk s → msgLenOk s → carrierOk s → capacityOk s → exec .hide s = .next t →
    pwdLenOk s' → carrierOk s' →
    8 * ((operands s).msgLen.toNat + 3) ≤ (operands s').width.toNat * (operands s').height.toNat →
    (operands s').ctrl.bitOrder = (operands s).ctrl.bitOrder →
    (operands s').ctrl.cipherEn = (operands s).ctrl.cipherEn →
    (operands s').pwdLen = (operands s).pwdLen →
    (∀ i, i < (operands s).pwdLen.toNat → pwdByte s' i = pwdByte s i) →
    (∀ k, k < 8 * ((operands s).msgLen.toNat + 3) → carrierByte s' k = carrierByte t k) →
    (∀ p, p + 2 < (operands s).msgLen.toNat → ¬ framedTerminatorAt s p) →
      ∃ t', exec .showCmd s' = .next t' ∧ t'.outLen = (operands s).msgLen ∧ t'.status.term = true ∧
        t'.cursor = BitVec.ofNat 32 (8 * ((operands s).msgLen.toNat + 3)) ∧ t'.carrier = s'.carrier ∧
        ∀ i, i < (operands s).msgLen.toNat → outByte t' i = msgByte s i

/-- 45_unpack.md R217 (the known false termination): when the ciphered message holds `00 00 03` first at byte `p`, with
`p + 2 < Lm`, a SHOW of what HIDE wrote returns the first `p` message bytes and no more. -/
def Obligations.ShowAfterHideStopsAtCipheredTerminator : Prop :=
  ∀ (s t s' : State) (p : Nat), pwdLenOk s → msgLenOk s → carrierOk s → capacityOk s → exec .hide s = .next t →
    pwdLenOk s' → carrierOk s' →
    8 * ((operands s).msgLen.toNat + 3) ≤ (operands s').width.toNat * (operands s').height.toNat →
    (operands s').ctrl.bitOrder = (operands s).ctrl.bitOrder →
    (operands s').ctrl.cipherEn = (operands s).ctrl.cipherEn →
    (operands s').pwdLen = (operands s).pwdLen →
    (∀ i, i < (operands s).pwdLen.toNat → pwdByte s' i = pwdByte s i) →
    (∀ k, k < 8 * ((operands s).msgLen.toNat + 3) → carrierByte s' k = carrierByte t k) →
    p + 2 < (operands s).msgLen.toNat → framedTerminatorAt s p → (∀ q, q < p → ¬ framedTerminatorAt s q) →
      ∃ t', exec .showCmd s' = .next t' ∧ t'.outLen = BitVec.ofNat 32 p ∧ t'.status.term = true ∧
        t'.cursor = BitVec.ofNat 32 (8 * (p + 3)) ∧
        (∀ i, i < p → outByte t' i = msgByte s i) ∧ (∀ i, p ≤ i → outByte t' i = outByte s' i)

/-! ### The register port (20_memory.md) -/

/-- 20_memory.md R62, 10_state.md R22 to R37: what a read of each register's address returns while IDLE. CTRL and STATUS
are given by the bit positions of 10_state.md R22 and R24. -/
def Obligations.RegisterReadsAsTheMapSays : Prop :=
  ∀ s : State, busy s = false →
    readValue s 0x000#22 = 0x4C534250#32 ∧
    (readValue s 0x004#22).toNat =
      s.ctrl.cipherEn.toNat + 2 * s.ctrl.bitOrder.toBool.toNat + 4 * s.ctrl.irqEn.toNat ∧
    readValue s 0x008#22 = 0#32 ∧
    (readValue s 0x00C#22).toNat =
      2 * s.status.done.toNat + 4 * s.status.err.toNat + 8 * s.status.term.toNat +
        16 * s.status.capOk.toNat + 32 * s.status.bwerr.toNat + 256 * s.status.errcode.toNat ∧
    readValue s 0x010#22 = s.width ∧ readValue s 0x014#22 = s.height ∧ readValue s 0x018#22 = s.pwdLen ∧
    readValue s 0x01C#22 = s.msgLen ∧ readValue s 0x020#22 = s.outLen ∧ readValue s 0x024#22 = s.result ∧
    readValue s 0x028#22 = s.cursor ∧ readValue s 0x02C#22 = 0#32 ∧
    readValue s 0x030#22 = BitVec.ofNat 32 s.params.carMax ∧
    readValue s 0x034#22 = BitVec.ofNat 32 s.params.msgMax ∧
    readValue s 0x038#22 = BitVec.ofNat 32 s.params.pwdMax ∧
    readValue s 0x03C#22 = BitVec.ofNat 32 s.params.outMax

/-- 20_memory.md R69, R67: every access of the port completes; a read changes nothing but what the host has been told
and the count of draws, both the model's own (notes/assumptions/15.md, 6.md); and while IDLE two reads with no write
between them return the same value. -/
def Obligations.PortAccessesCompleteAndReadsChangeNothing : Prop :=
  ∀ (s : State) (addr : PortAddr) (rest : List Turn),
    (∀ v, s.schedule = .hostWrite addr v :: rest → ∃ t, step s = .next t ∧ t.schedule = rest) ∧
    (s.schedule = .hostRead addr :: rest →
      ∃ v draws, step s = .next { s with schedule := rest, reads := s.reads ++ [v], draws := draws }) ∧
    (busy s = false → s.schedule = .hostRead addr :: .hostRead addr :: rest →
      ∃ v, Host.Core.run core 2 s = .next { s with schedule := rest, reads := s.reads ++ [v, v] })

/-- 10_state.md R22, R31, R32: while IDLE a write to CTRL stores bits 2:0 and a write to WIDTH, HEIGHT, PWD_LEN or
MSG_LEN stores all 32 bits; nothing else changes. -/
def Obligations.OperandRegisterWritesStore : Prop :=
  ∀ (s : State) (v : Word) (rest : List Turn), busy s = false →
    (s.schedule = .hostWrite 0x004#22 v :: rest →
      step s = .next { s with
        schedule := rest
        ctrl :=
          { cipherEn := v.getLsbD 0
            bitOrder := if v.getLsbD 1 then .lsbFirst else .msbFirst
            irqEn := v.getLsbD 2 } }) ∧
    (s.schedule = .hostWrite 0x010#22 v :: rest → step s = .next { s with schedule := rest, width := v }) ∧
    (s.schedule = .hostWrite 0x014#22 v :: rest → step s = .next { s with schedule := rest, height := v }) ∧
    (s.schedule = .hostWrite 0x018#22 v :: rest → step s = .next { s with schedule := rest, pwdLen := v }) ∧
    (s.schedule = .hostWrite 0x01C#22 v :: rest → step s = .next { s with schedule := rest, msgLen := v })

/-- 20_memory.md R64: while IDLE a read of a window entry returns its byte zero-extended; a write to an existing entry
of the PWD window makes that word read `v[7:0]`, leaves what every other word of the port reads, and changes no state
but PWD; the same for MSG; a write to an OUT entry is ignored. -/
def Obligations.BufferWindowsReadAndWriteOneByte : Prop :=
  ∀ (s : State) (i : Nat) (v : Word) (rest : List Turn), s.params.legal → busy s = false →
    (i < s.params.pwdMax →
      readValue s (BitVec.ofNat 22 (0x010000 + 4 * i)) = (pwdByte s i).setWidth 32 ∧
      (s.schedule = .hostWrite (BitVec.ofNat 22 (0x010000 + 4 * i)) v :: rest →
        ∃ t, step s = .next t ∧ t = { s with schedule := rest, pwd := t.pwd } ∧
          readValue t (BitVec.ofNat 22 (0x010000 + 4 * i)) = (v.setWidth 8).setWidth 32 ∧
          ∀ a : PortAddr, a.toNat / 4 ≠ 0x4000 + i → readValue t a = readValue s a)) ∧
    (i < s.params.msgMax →
      readValue s (BitVec.ofNat 22 (0x100000 + 4 * i)) = (msgByte s i).setWidth 32 ∧
      (s.schedule = .hostWrite (BitVec.ofNat 22 (0x100000 + 4 * i)) v :: rest →
        ∃ t, step s = .next t ∧ t = { s with schedule := rest, msg := t.msg } ∧
          readValue t (BitVec.ofNat 22 (0x100000 + 4 * i)) = (v.setWidth 8).setWidth 32 ∧
          ∀ a : PortAddr, a.toNat / 4 ≠ 0x40000 + i → readValue t a = readValue s a)) ∧
    (i < s.params.outMax →
      readValue s (BitVec.ofNat 22 (0x200000 + 4 * i)) = (outByte s i).setWidth 32 ∧
      (s.schedule = .hostWrite (BitVec.ofNat 22 (0x200000 + 4 * i)) v :: rest →
        step s = .next { s with schedule := rest }))

/-- 20_memory.md R65: a word that no register and no existing window entry occupies reads 0, BUSY or not; a write to it
is ignored while IDLE, and while BUSY sets BWERR. That the unmapped words of the OUT window read 0 while BUSY too, where
R83 calls the OUT window unspecified, is the model's reading (notes/assumptions/7.md). -/
def Obligations.UnmappedWordsReadZeroAndIgnoreWrites : Prop :=
  ∀ (s : State) (addr : PortAddr) (v : Word) (rest : List Turn), s.params.legal →
    let a := 4 * (addr.toNat / 4)
    (a = 0x02C ∨ (0x040 ≤ a ∧ a < 0x010000) ∨ (0x010000 + 4 * s.params.pwdMax ≤ a ∧ a < 0x100000) ∨
      (0x100000 + 4 * s.params.msgMax ≤ a ∧ a < 0x200000) ∨ 0x200000 + 4 * s.params.outMax ≤ a) →
    (s.schedule = .hostRead addr :: rest →
      step s = .next { s with schedule := rest, reads := s.reads ++ [0#32] }) ∧
    (s.schedule = .hostWrite addr v :: rest →
      step s = .next
        (if busy s then { s with schedule := rest, status := { s.status with bwerr := true } }
        else { s with schedule := rest }))

/-- 20_memory.md R64, R66: while IDLE a write to a read-only register (ID, OUT_LEN, RESULT, CURSOR, the parameters) or to
any word of the OUT window is ignored and sets nothing. -/
def Obligations.ReadOnlyWordsIgnoreWrites : Prop :=
  ∀ (s : State) (addr : PortAddr) (v : Word) (rest : List Turn), busy s = false →
    (4 * (addr.toNat / 4) ∈ [0x000, 0x020, 0x024, 0x028, 0x030, 0x034, 0x038, 0x03C] ∨ 0x200000 ≤ addr.toNat) →
    s.schedule = .hostWrite addr v :: rest → step s = .next { s with schedule := rest }

/-- 20_memory.md R83, R66, 10_state.md R23: while BUSY the operand registers, ID, the parameters and the PWD and MSG
windows read their values, STATUS reads BUSY and BWERR alone, CMD reads 0, and OUT_LEN, RESULT, CURSOR and an existing
entry of the OUT window read a fresh unspecified value. The model's own: the draw, `Config.busyRead` of a count that the
read advances (for every value of it; notes/assumptions/6.md), that only existing OUT entries draw (7.md), and the record
of what the read returned (15.md). -/
def Obligations.ReadsWhileBusy : Prop :=
  ∀ (s : State) (addr : PortAddr) (rest : List Turn), Inv s → busy s = true →
    s.schedule = .hostRead addr :: rest →
    let a := 4 * (addr.toNat / 4)
    (a = 0x00C → step s = .next { s with
      schedule := rest
      reads := s.reads ++ [BitVec.ofNat 32 (1 + 32 * s.status.bwerr.toNat)] }) ∧
    (a = 0x008 → step s = .next { s with schedule := rest, reads := s.reads ++ [0#32] }) ∧
    (a ∈ [0x000, 0x004, 0x010, 0x014, 0x018, 0x01C, 0x030, 0x034, 0x038, 0x03C] ∨ (0x010000 ≤ a ∧ a < 0x200000) →
      step s = .next { s with schedule := rest, reads := s.reads ++ [readValue { s with seq := .idle } addr] }) ∧
    (a = 0x020 ∨ a = 0x024 ∨ a = 0x028 ∨ (0x200000 ≤ a ∧ a < 0x200000 + 4 * s.params.outMax) →
      step s = .next { s with
        schedule := rest
        reads := s.reads ++ [Config.busyRead s.draws]
        draws := s.draws + 1 })

/-- 10_state.md R43, 60_exceptions.md section 2: a completion raises IRQ exactly when IRQ_EN is set; accepting a command,
clearing DONE and a reset lower it. -/
def Obligations.InterruptFollowsDoneAndEnable : Prop :=
  ∀ (s t : State) (rest : List Turn), step s = .next t →
    (busy s = true → sequencerNext s rest → irq t = s.ctrl.irqEn) ∧
    (∀ w, busy s = false → s.schedule = .hostWrite 0x008#22 w :: rest → irq t = false) ∧
    (∀ v : Word, v.getLsbD 1 = true → s.schedule = .hostWrite 0x00C#22 v :: rest → irq t = false) ∧
    (∀ written, s.schedule = .reset written :: rest → irq t = false)

/-- 30_encoding.md R98, R99: the transactions of `cmd`, `ack`, `ldpwd` and `ldmsg`. For a text longer than its window the
spec names no address, and the ones here are the model's choice (notes/assumptions/22.md). -/
def Obligations.PseudoInstructionsExpandAsListed : Prop :=
  (HostLine.cmd .nop).turns = [.hostWrite 0x008#22 0x00000000#32] ∧
  (HostLine.cmd .hide).turns = [.hostWrite 0x008#22 0x00000001#32] ∧
  (HostLine.cmd .showCmd).turns = [.hostWrite 0x008#22 0x00000002#32] ∧
  (HostLine.cmd .chkcap).turns = [.hostWrite 0x008#22 0x00000003#32] ∧
  (∀ i, i < 2 ^ 24 → (HostLine.cmd (.maskat i)).turns = [.hostWrite 0x008#22 (BitVec.ofNat 32 (i <<< 8 ||| 0x04))]) ∧
  (HostLine.cmd .frame).turns = [.hostWrite 0x008#22 0x00000005#32] ∧
  (HostLine.cmd .unframe).turns = [.hostWrite 0x008#22 0x00000006#32] ∧
  HostLine.ack.turns = [.hostWrite 0x00C#22 0x00000002#32] ∧
  (∀ bytes : List Byte, (HostLine.ldpwd bytes).turns =
    (List.range bytes.length).map
      (fun i => .hostWrite (BitVec.ofNat 22 (0x010000 + 4 * i)) ((bytes.getD i 0#8).setWidth 32)) ++
      [.hostWrite 0x018#22 (BitVec.ofNat 32 bytes.length)]) ∧
  (∀ bytes : List Byte, (HostLine.ldmsg bytes).turns =
    (List.range bytes.length).map
      (fun i => .hostWrite (BitVec.ofNat 22 (0x100000 + 4 * i)) ((bytes.getD i 0#8).setWidth 32)) ++
      [.hostWrite 0x01C#22 (BitVec.ofNat 32 bytes.length)])

/-! ### Reset (70_reset_and_hazards.md) -/

/-- 10_state.md section 5: what the registers read after reset, for any parameters; IDLE, IRQ 0, and every buffer entry
and carrier byte an unspecified value (free values; notes/assumptions/4.md, 5.md). -/
def Obligations.ResetValuesAsTheTableSays : Prop :=
  ∀ p : Params,
    let s := State.resetWith p
    s.seq = .idle ∧ busy s = false ∧ irq s = false ∧
    regValue s .id = 0x4C534250#32 ∧ regValue s .ctrl = 0x00000001#32 ∧ regValue s .status = 0#32 ∧
    regValue s .width = 0#32 ∧ regValue s .height = 0#32 ∧ regValue s .pwdLen = 0#32 ∧
    regValue s .msgLen = 0#32 ∧ regValue s .outLen = 0#32 ∧ regValue s .result = 0#32 ∧
    regValue s .cursor = 0#32 ∧ regValue s .carMax = BitVec.ofNat 32 p.carMax ∧
    regValue s .msgMax = BitVec.ofNat 32 p.msgMax ∧ regValue s .pwdMax = BitVec.ofNat 32 p.pwdMax ∧
    regValue s .outMax = BitVec.ofNat 32 p.outMax ∧
    (∀ i, pwdByte s i = Config.resetPwd 0 i ∧ msgByte s i = Config.resetMsg 0 i ∧
      outByte s i = Config.resetOut 0 i ∧ carrierByte s i = Config.unloadedCarrier i)

/-- 70_reset_and_hazards.md R270, R273, 10_state.md R45: RST puts every register at its reset value and the sequencer
IDLE, abandons a command in progress (DONE and ERR 0, IRQ 0), gives the buffers a new unspecified value, and leaves the
Carrier Store alone unless a HIDE was in progress. The model's own: the new draw by `resets + 1` (notes/assumptions/4.md),
the kept `reads` and `saved` (15.md) and `draws` (6.md), the schedule (2.md), and that a reset is one turn (9.md). -/
def Obligations.ResetTurnRestoresTheResetState : Prop :=
  ∀ (s : State) (written : List Nat) (rest : List Turn), s.schedule = .reset written :: rest →
    ∃ t, step s = .next t ∧
      t = { State.resetWith s.params with
        carrier := t.carrier
        schedule := rest
        reads := s.reads
        saved := s.saved
        draws := s.draws
        resets := s.resets + 1 } ∧
      irq t = false ∧ t.status.done = false ∧ t.status.err = false ∧
      (∀ i, pwdByte t i = Config.resetPwd (s.resets + 1) i ∧ msgByte t i = Config.resetMsg (s.resets + 1) i ∧
        outByte t i = Config.resetOut (s.resets + 1) i) ∧
      ((∀ held, s.seq ≠ .busy 0x00000001#32 held) → t.carrier = s.carrier)

/-- 70_reset_and_hazards.md R272: a reset during a HIDE leaves each pixel below `8 * (Lm + 3)` as it was or as the HIDE
would have left it, as the draw `written` says, and every other pixel as it was; for a HIDE that would have failed the
two are the same. That the draw is carried by the reset's turn is the model's choice (notes/assumptions/9.md). -/
def Obligations.ResetDuringHideLeavesEachPixelOldOrNew : Prop :=
  ∀ (s : State) (held : Operands) (written : List Nat) (rest : List Turn),
    s.seq = .busy 0x00000001#32 held → s.schedule = .reset written :: rest →
    ∃ t u, step s = .next t ∧ exec .hide s = .next u ∧
      (∀ k, carrierByte t k =
        if k < 8 * (held.msgLen.toNat + 3) ∧ k ∈ written then carrierByte u k else carrierByte s k)

/-! ### The Carrier Store and the whole machine -/

/-- 20_memory.md R82: an adapter access to the Carrier Store while BUSY is the fault HOST_CARRIER_CONFLICT. -/
def Obligations.CarrierAccessWhileBusyFaults : Prop :=
  ∀ (s : State) (k : Nat) (v : Byte) (rest : List Turn), busy s = true →
    (s.schedule = .carrierLoad k v :: rest ∨ s.schedule = .carrierSave k :: rest) →
      step s = .fault .hostCarrierConflict

/-- 20_memory.md R70: while IDLE the adapter's load of `CS[k]` makes that byte read `v` and leaves every other byte and
everything else; its save returns the byte and changes nothing else. The model's own: that any `k < CAR_MAX` may be
accessed, where R87 speaks of `CS[0..W*H)` (notes/assumptions/10.md), and the list `saved` that records what a save
returned (15.md). -/
def Obligations.AdapterLoadsAndSavesOneByte : Prop :=
  ∀ (s : State) (k : Nat) (v : Byte) (rest : List Turn), busy s = false → k < s.params.carMax →
    (s.schedule = .carrierLoad k v :: rest →
      ∃ t, step s = .next t ∧ t = { s with schedule := rest, carrier := t.carrier } ∧
        carrierByte t k = v ∧ ∀ j, j ≠ k → carrierByte t j = carrierByte s j) ∧
    (s.schedule = .carrierSave k :: rest →
      step s = .next { s with schedule := rest, saved := s.saved ++ [carrierByte s k] })

/-- 60_exceptions.md R257: nothing but an adapter access ever stops the machine: one made while BUSY, or one outside the
Carrier Store (the model's own fault, notes/assumptions/10.md). No step is refused. -/
def Obligations.OnlyAdapterAccessesStopTheMachine : Prop :=
  ∀ s : State,
    (∀ r, step s ≠ .refused r) ∧
    (∀ f, step s = .fault f →
      ∃ k rest, ((∃ v, s.schedule = .carrierLoad k v :: rest) ∨ s.schedule = .carrierSave k :: rest) ∧
        ((f = .hostCarrierConflict ∧ busy s = true) ∨
          (f = .carrierOutOfRange ∧ busy s = false ∧ s.params.carMax ≤ k)))

/-- The invariant holds after reset, for every legal choice of the parameters. -/
def Obligations.InvariantHoldsAfterReset : Prop :=
  ∀ p : Params, p.legal → Inv (State.resetWith p)

/-- Every step of every agent keeps the invariant: canonical and bounded byte arrays, held operands equal to the
registers (10_state.md R41), outcome bits clear while BUSY (20_memory.md R83), ERR = 0 exactly when ERRCODE = 0
(10_state.md R27), no reserved code, RESULT below 256, OUT_LEN and CURSOR within their buffers. -/
def Obligations.EveryStepKeepsTheInvariant : Prop :=
  ∀ s t : State, Inv s → step s = .next t → Inv t

/-- 10_state.md R25, R26, R30: the events that change BUSY, DONE and BWERR, what each does to them, and that nothing
else that can happen in a step does. -/
def Obligations.OnlyListedEventsChangeBusyDoneAndBwerr : Prop :=
  ∀ s t : State, step s = .next t →
    let completes : Prop := busy s = true ∧ ∃ rest, sequencerNext s rest
    let accepts : Prop := busy s = false ∧ ∃ a w rest, s.schedule = .hostWrite a w :: rest ∧ a.toNat / 4 = 2
    let resets : Prop := ∃ written rest, s.schedule = .reset written :: rest
    let clears (bit : Nat) : Prop :=
      ∃ a v rest, s.schedule = .hostWrite a v :: rest ∧ a.toNat / 4 = 3 ∧ v.getLsbD bit = true
    let loses : Prop := busy s = true ∧ ∃ a v rest, s.schedule = .hostWrite a v :: rest ∧ a.toNat / 4 ≠ 3
    (accepts → busy t = true ∧ t.status.done = false ∧ t.status.bwerr = s.status.bwerr) ∧
    (completes → busy t = false ∧ t.status.done = true ∧ t.status.bwerr = s.status.bwerr) ∧
    (resets → busy t = false ∧ t.status.done = false ∧ t.status.bwerr = false) ∧
    (clears 1 → t.status.done = false) ∧ (clears 5 → t.status.bwerr = false) ∧ (loses → t.status.bwerr = true) ∧
    (busy t ≠ busy s → accepts ∨ completes ∨ resets) ∧
    (t.status.done ≠ s.status.done → completes ∨ accepts ∨ clears 1 ∨ resets) ∧
    (t.status.bwerr ≠ s.status.bwerr → loses ∨ clears 5 ∨ resets)

/-- 10_state.md R33, R34, R36, R38, R44, 40_command.md R111: of all that can happen in a step, only a completion or a
reset changes an output, only a host write while IDLE or a reset changes an operand or the PWD and MSG buffers, and only
the adapter while IDLE, a HIDE's completion, or a reset during a HIDE changes the Carrier Store. -/
def Obligations.OnlyListedEventsChangeEachPieceOfState : Prop :=
  ∀ s t : State, step s = .next t →
    let resets : Prop := ∃ written rest, s.schedule = .reset written :: rest
    let sequencerMoves : Prop := ∃ rest, sequencerNext s rest
    (t.outLen ≠ s.outLen ∨ t.result ≠ s.result ∨ t.cursor ≠ s.cursor ∨ (∃ i, outByte t i ≠ outByte s i) →
      (busy s = true ∧ sequencerMoves) ∨ resets) ∧
    (operandRegisters t ≠ operandRegisters s ∨ (∃ i, pwdByte t i ≠ pwdByte s i) ∨ (∃ i, msgByte t i ≠ msgByte s i) →
      (busy s = false ∧ ∃ a v rest, s.schedule = .hostWrite a v :: rest) ∨ resets) ∧
    (∀ k, carrierByte t k ≠ carrierByte s k →
      (busy s = false ∧ ∃ v rest, s.schedule = .carrierLoad k v :: rest) ∨
      (∃ held, s.seq = .busy 0x00000001#32 held ∧ k < 8 * (held.msgLen.toNat + 3) ∧ (sequencerMoves ∨ resets))) ∧
    t.params = s.params

/-- 70_reset_and_hazards.md R286 says when a run has ended: the host has made its last transaction and BUSY = 0. That the
machine then stays as it is, so that what is observed stays, is the model's choice (the idle stutter,
notes/assumptions/2.md). -/
def Obligations.EndedRunStaysEnded : Prop :=
  ∀ (s : State) (n : Nat), runEnded s → Host.Core.run core n s = .next s
end

