-- ==== Sys2Proof/Laws/State.lean ====
section
/-! SUPPORT. One lemma per field per update, so that no proof unfolds a record update; and what the derived views
(`busy`, `operands`) of an updated state are. -/

namespace Sys2Proof.Machine

/-! ### `finish` -/

@[simp] theorem finish_params (s : State) : (finish s).params = s.params := rfl
@[simp] theorem finish_ctrl (s : State) : (finish s).ctrl = s.ctrl := rfl
@[simp] theorem finish_status (s : State) : (finish s).status = { s.status with done := true } := rfl
@[simp] theorem finish_width (s : State) : (finish s).width = s.width := rfl
@[simp] theorem finish_height (s : State) : (finish s).height = s.height := rfl
@[simp] theorem finish_pwdLen (s : State) : (finish s).pwdLen = s.pwdLen := rfl
@[simp] theorem finish_msgLen (s : State) : (finish s).msgLen = s.msgLen := rfl
@[simp] theorem finish_outLen (s : State) : (finish s).outLen = s.outLen := rfl
@[simp] theorem finish_result (s : State) : (finish s).result = s.result := rfl
@[simp] theorem finish_cursor (s : State) : (finish s).cursor = s.cursor := rfl
@[simp] theorem finish_seq (s : State) : (finish s).seq = .idle := rfl
@[simp] theorem finish_pwd (s : State) : (finish s).pwd = s.pwd := rfl
@[simp] theorem finish_msg (s : State) : (finish s).msg = s.msg := rfl
@[simp] theorem finish_out (s : State) : (finish s).out = s.out := rfl
@[simp] theorem finish_carrier (s : State) : (finish s).carrier = s.carrier := rfl
@[simp] theorem finish_schedule (s : State) : (finish s).schedule = s.schedule := rfl
@[simp] theorem finish_reads (s : State) : (finish s).reads = s.reads := rfl
@[simp] theorem finish_saved (s : State) : (finish s).saved = s.saved := rfl
@[simp] theorem finish_draws (s : State) : (finish s).draws = s.draws := rfl
@[simp] theorem finish_resets (s : State) : (finish s).resets = s.resets := rfl

/-! ### `raiseError` -/

@[simp] theorem raiseError_params (e : ErrorCode) (s : State) : (raiseError e s).params = s.params := rfl
@[simp] theorem raiseError_ctrl (e : ErrorCode) (s : State) : (raiseError e s).ctrl = s.ctrl := rfl
@[simp] theorem raiseError_status (e : ErrorCode) (s : State) : (raiseError e s).status = { s.status with done := true, err := true, errcode := errorNumber e } := rfl
@[simp] theorem raiseError_width (e : ErrorCode) (s : State) : (raiseError e s).width = s.width := rfl
@[simp] theorem raiseError_height (e : ErrorCode) (s : State) : (raiseError e s).height = s.height := rfl
@[simp] theorem raiseError_pwdLen (e : ErrorCode) (s : State) : (raiseError e s).pwdLen = s.pwdLen := rfl
@[simp] theorem raiseError_msgLen (e : ErrorCode) (s : State) : (raiseError e s).msgLen = s.msgLen := rfl
@[simp] theorem raiseError_outLen (e : ErrorCode) (s : State) : (raiseError e s).outLen = s.outLen := rfl
@[simp] theorem raiseError_result (e : ErrorCode) (s : State) : (raiseError e s).result = s.result := rfl
@[simp] theorem raiseError_cursor (e : ErrorCode) (s : State) : (raiseError e s).cursor = s.cursor := rfl
@[simp] theorem raiseError_seq (e : ErrorCode) (s : State) : (raiseError e s).seq = .idle := rfl
@[simp] theorem raiseError_pwd (e : ErrorCode) (s : State) : (raiseError e s).pwd = s.pwd := rfl
@[simp] theorem raiseError_msg (e : ErrorCode) (s : State) : (raiseError e s).msg = s.msg := rfl
@[simp] theorem raiseError_out (e : ErrorCode) (s : State) : (raiseError e s).out = s.out := rfl
@[simp] theorem raiseError_carrier (e : ErrorCode) (s : State) : (raiseError e s).carrier = s.carrier := rfl
@[simp] theorem raiseError_schedule (e : ErrorCode) (s : State) : (raiseError e s).schedule = s.schedule := rfl
@[simp] theorem raiseError_reads (e : ErrorCode) (s : State) : (raiseError e s).reads = s.reads := rfl
@[simp] theorem raiseError_saved (e : ErrorCode) (s : State) : (raiseError e s).saved = s.saved := rfl
@[simp] theorem raiseError_draws (e : ErrorCode) (s : State) : (raiseError e s).draws = s.draws := rfl
@[simp] theorem raiseError_resets (e : ErrorCode) (s : State) : (raiseError e s).resets = s.resets := rfl

/-! ### `accept` -/

@[simp] theorem accept_params (w : Word) (s : State) : (accept w s).params = s.params := rfl
@[simp] theorem accept_ctrl (w : Word) (s : State) : (accept w s).ctrl = s.ctrl := rfl
@[simp] theorem accept_status (w : Word) (s : State) : (accept w s).status = acceptFlags s.status := rfl
@[simp] theorem accept_width (w : Word) (s : State) : (accept w s).width = s.width := rfl
@[simp] theorem accept_height (w : Word) (s : State) : (accept w s).height = s.height := rfl
@[simp] theorem accept_pwdLen (w : Word) (s : State) : (accept w s).pwdLen = s.pwdLen := rfl
@[simp] theorem accept_msgLen (w : Word) (s : State) : (accept w s).msgLen = s.msgLen := rfl
@[simp] theorem accept_outLen (w : Word) (s : State) : (accept w s).outLen = s.outLen := rfl
@[simp] theorem accept_result (w : Word) (s : State) : (accept w s).result = s.result := rfl
@[simp] theorem accept_cursor (w : Word) (s : State) : (accept w s).cursor = s.cursor := rfl
@[simp] theorem accept_seq (w : Word) (s : State) : (accept w s).seq = .busy w (operandRegisters s) := rfl
@[simp] theorem accept_pwd (w : Word) (s : State) : (accept w s).pwd = s.pwd := rfl
@[simp] theorem accept_msg (w : Word) (s : State) : (accept w s).msg = s.msg := rfl
@[simp] theorem accept_out (w : Word) (s : State) : (accept w s).out = s.out := rfl
@[simp] theorem accept_carrier (w : Word) (s : State) : (accept w s).carrier = s.carrier := rfl
@[simp] theorem accept_schedule (w : Word) (s : State) : (accept w s).schedule = s.schedule := rfl
@[simp] theorem accept_reads (w : Word) (s : State) : (accept w s).reads = s.reads := rfl
@[simp] theorem accept_saved (w : Word) (s : State) : (accept w s).saved = s.saved := rfl
@[simp] theorem accept_draws (w : Word) (s : State) : (accept w s).draws = s.draws := rfl
@[simp] theorem accept_resets (w : Word) (s : State) : (accept w s).resets = s.resets := rfl

/-! ### `hostRead` -/

@[simp] theorem hostRead_params (a : PortAddr) (s : State) : (hostRead a s).params = s.params := rfl
@[simp] theorem hostRead_ctrl (a : PortAddr) (s : State) : (hostRead a s).ctrl = s.ctrl := rfl
@[simp] theorem hostRead_status (a : PortAddr) (s : State) : (hostRead a s).status = s.status := rfl
@[simp] theorem hostRead_width (a : PortAddr) (s : State) : (hostRead a s).width = s.width := rfl
@[simp] theorem hostRead_height (a : PortAddr) (s : State) : (hostRead a s).height = s.height := rfl
@[simp] theorem hostRead_pwdLen (a : PortAddr) (s : State) : (hostRead a s).pwdLen = s.pwdLen := rfl
@[simp] theorem hostRead_msgLen (a : PortAddr) (s : State) : (hostRead a s).msgLen = s.msgLen := rfl
@[simp] theorem hostRead_outLen (a : PortAddr) (s : State) : (hostRead a s).outLen = s.outLen := rfl
@[simp] theorem hostRead_result (a : PortAddr) (s : State) : (hostRead a s).result = s.result := rfl
@[simp] theorem hostRead_cursor (a : PortAddr) (s : State) : (hostRead a s).cursor = s.cursor := rfl
@[simp] theorem hostRead_seq (a : PortAddr) (s : State) : (hostRead a s).seq = s.seq := rfl
@[simp] theorem hostRead_pwd (a : PortAddr) (s : State) : (hostRead a s).pwd = s.pwd := rfl
@[simp] theorem hostRead_msg (a : PortAddr) (s : State) : (hostRead a s).msg = s.msg := rfl
@[simp] theorem hostRead_out (a : PortAddr) (s : State) : (hostRead a s).out = s.out := rfl
@[simp] theorem hostRead_carrier (a : PortAddr) (s : State) : (hostRead a s).carrier = s.carrier := rfl
@[simp] theorem hostRead_schedule (a : PortAddr) (s : State) : (hostRead a s).schedule = s.schedule := rfl
@[simp] theorem hostRead_reads (a : PortAddr) (s : State) : (hostRead a s).reads = s.reads ++ [readValue s a] := rfl
@[simp] theorem hostRead_saved (a : PortAddr) (s : State) : (hostRead a s).saved = s.saved := rfl
@[simp] theorem hostRead_draws (a : PortAddr) (s : State) : (hostRead a s).draws = if drawsValue s a then s.draws + 1 else s.draws := rfl
@[simp] theorem hostRead_resets (a : PortAddr) (s : State) : (hostRead a s).resets = s.resets := rfl

/-! ### `resetBlock` -/

@[simp] theorem resetBlock_params (ws : List Nat) (s : State) : (resetBlock ws s).params = s.params := rfl
@[simp] theorem resetBlock_ctrl (ws : List Nat) (s : State) : (resetBlock ws s).ctrl = { cipherEn := true, bitOrder := .msbFirst, irqEn := false } := rfl
@[simp] theorem resetBlock_status (ws : List Nat) (s : State) : (resetBlock ws s).status = { done := false, err := false, term := false, capOk := false, bwerr := false, errcode := 0#4 } := rfl
@[simp] theorem resetBlock_width (ws : List Nat) (s : State) : (resetBlock ws s).width = 0#32 := rfl
@[simp] theorem resetBlock_height (ws : List Nat) (s : State) : (resetBlock ws s).height = 0#32 := rfl
@[simp] theorem resetBlock_pwdLen (ws : List Nat) (s : State) : (resetBlock ws s).pwdLen = 0#32 := rfl
@[simp] theorem resetBlock_msgLen (ws : List Nat) (s : State) : (resetBlock ws s).msgLen = 0#32 := rfl
@[simp] theorem resetBlock_outLen (ws : List Nat) (s : State) : (resetBlock ws s).outLen = 0#32 := rfl
@[simp] theorem resetBlock_result (ws : List Nat) (s : State) : (resetBlock ws s).result = 0#32 := rfl
@[simp] theorem resetBlock_cursor (ws : List Nat) (s : State) : (resetBlock ws s).cursor = 0#32 := rfl
@[simp] theorem resetBlock_seq (ws : List Nat) (s : State) : (resetBlock ws s).seq = .idle := rfl
@[simp] theorem resetBlock_pwd (ws : List Nat) (s : State) : (resetBlock ws s).pwd = [] := rfl
@[simp] theorem resetBlock_msg (ws : List Nat) (s : State) : (resetBlock ws s).msg = [] := rfl
@[simp] theorem resetBlock_out (ws : List Nat) (s : State) : (resetBlock ws s).out = [] := rfl
@[simp] theorem resetBlock_carrier (ws : List Nat) (s : State) : (resetBlock ws s).carrier = carrierAfterReset ws s := rfl
@[simp] theorem resetBlock_schedule (ws : List Nat) (s : State) : (resetBlock ws s).schedule = s.schedule := rfl
@[simp] theorem resetBlock_reads (ws : List Nat) (s : State) : (resetBlock ws s).reads = s.reads := rfl
@[simp] theorem resetBlock_saved (ws : List Nat) (s : State) : (resetBlock ws s).saved = s.saved := rfl
@[simp] theorem resetBlock_draws (ws : List Nat) (s : State) : (resetBlock ws s).draws = s.draws := rfl
@[simp] theorem resetBlock_resets (ws : List Nat) (s : State) : (resetBlock ws s).resets = s.resets + 1 := rfl

/-! ### Derived views -/

@[simp] theorem busy_finish (s : State) : busy (finish s) = false := rfl
@[simp] theorem busy_raiseError (e : ErrorCode) (s : State) : busy (raiseError e s) = false := rfl
@[simp] theorem busy_accept (w : Word) (s : State) : busy (accept w s) = true := rfl
@[simp] theorem busy_resetBlock (ws : List Nat) (s : State) : busy (resetBlock ws s) = false := rfl

theorem busy_of_seq_busy {s : State} {w : Word} {held : Operands} (h : s.seq = .busy w held) : busy s = true := by
  simp [busy, h]

theorem seq_of_busy {s : State} (h : busy s = true) : ∃ w held, s.seq = .busy w held := by
  cases hs : s.seq with
  | idle => simp [busy, hs] at h
  | busy w held => exact ⟨w, held, rfl⟩

theorem seq_of_not_busy {s : State} (h : busy s = false) : s.seq = .idle := by
  cases hs : s.seq with
  | idle => rfl
  | busy w held => simp [busy, hs] at h

theorem operands_of_seq_busy {s : State} {w : Word} {held : Operands} (h : s.seq = .busy w held) :
    operands s = held := by
  simp [operands, h]

theorem operands_of_not_busy {s : State} (h : busy s = false) : operands s = operandRegisters s := by
  simp [operands, seq_of_not_busy h]

/-- With the held operands equal to the registers (10_state.md R41), the operands are the registers, BUSY or not. -/
theorem operands_eq_registers {s : State} (h : ∀ w held, s.seq = .busy w held → held = operandRegisters s) :
    operands s = operandRegisters s := by
  cases hs : s.seq with
  | idle => simp [operands, hs]
  | busy w held => simpa [operands, hs] using h w held hs

/-- The outside world's fields and BWERR are no operand of a command. -/
@[simp] theorem operands_outside (s : State) (st : Status) (sc : List Turn) (rd : List Word) (n : Nat) :
    operands { s with status := st, schedule := sc, reads := rd, draws := n } = operands s := rfl

end Sys2Proof.Machine
end

