-- ==== Sys2Proof/Laws/Port.lean ====
section
/-! SUPPORT. What an address of the register port names (20_memory.md R62, R63, R65), one lemma per region, and
everything a host write can do (`hostWrite_cases`). -/

namespace Sys2Proof.Machine

theorem regOffset_lt (r : Reg) : regOffset r < 0x40 := by cases r <;> decide

theorem find_regOffset (r : Reg) : allRegs.find? (fun q => regOffset q == regOffset r) = some r := by
  cases r <;> decide

/-- No register beyond the map. -/
theorem find_reg_none {a : Nat} (h : ∀ r, regOffset r ≠ a) : allRegs.find? (fun q => regOffset q == a) = none := by
  rw [List.find?_eq_none]
  intro q _
  simpa using h q

theorem target_of_offset (p : Params) {addr : PortAddr} {r : Reg} (h : 4 * (addr.toNat / 4) = regOffset r) :
    target p addr = .reg r := by
  simp [target, h, find_regOffset]

/-- An address names a register exactly at its offset. -/
theorem target_eq_reg_iff (p : Params) (addr : PortAddr) (r : Reg) :
    target p addr = .reg r ↔ 4 * (addr.toNat / 4) = regOffset r := by
  refine ⟨fun h => ?_, target_of_offset p⟩
  by_cases hex : ∃ q, regOffset q = 4 * (addr.toNat / 4)
  · obtain ⟨q, hq⟩ := hex
    rw [target_of_offset p hq.symm] at h
    injection h with h
    rw [← h, hq]
  · have hnone := find_reg_none (a := 4 * (addr.toNat / 4)) (fun r hr => hex ⟨r, hr⟩)
    simp only [target, hnone] at h
    split at h
    · split at h <;> simp at h
    · split at h
      · split at h <;> simp at h
      · split at h
        · split at h <;> simp at h
        · simp at h

theorem target_pwd_window (p : Params) {addr : PortAddr} {i : Nat} (h : addr.toNat / 4 = 0x4000 + i) (hi : i < 16384) :
    target p addr = if i < p.pwdMax then .pwd i else .unmapped := by
  have hnone : allRegs.find? (fun q => regOffset q == 4 * (addr.toNat / 4)) = none :=
    find_reg_none (fun r => by have := regOffset_lt r; omega)
  have h1 : pwdWindow ≤ 4 * (addr.toNat / 4) ∧ 4 * (addr.toNat / 4) < 0x020000 := by
    rw [h]; unfold pwdWindow; omega
  have h2 : (4 * (addr.toNat / 4) - pwdWindow) / 4 = i := by rw [h]; unfold pwdWindow; omega
  simp only [target, hnone, h1, and_self, if_true, h2]

theorem target_msg_window (p : Params) {addr : PortAddr} {i : Nat} (h : addr.toNat / 4 = 0x40000 + i)
    (hi : i < 262144) : target p addr = if i < p.msgMax then .msg i else .unmapped := by
  have hnone : allRegs.find? (fun q => regOffset q == 4 * (addr.toNat / 4)) = none :=
    find_reg_none (fun r => by have := regOffset_lt r; omega)
  have h0 : ¬ (pwdWindow ≤ 4 * (addr.toNat / 4) ∧ 4 * (addr.toNat / 4) < 0x020000) := by
    rw [h]; unfold pwdWindow; omega
  have h1 : msgWindow ≤ 4 * (addr.toNat / 4) ∧ 4 * (addr.toNat / 4) < 0x200000 := by
    rw [h]; unfold msgWindow; omega
  have h2 : (4 * (addr.toNat / 4) - msgWindow) / 4 = i := by rw [h]; unfold msgWindow; omega
  simp only [target, hnone, h0, if_false, h1, and_self, if_true, h2]

theorem target_out_window (p : Params) {addr : PortAddr} {i : Nat} (h : addr.toNat / 4 = 0x80000 + i) :
    target p addr = if i < p.outMax then .out i else .unmapped := by
  have hnone : allRegs.find? (fun q => regOffset q == 4 * (addr.toNat / 4)) = none :=
    find_reg_none (fun r => by have := regOffset_lt r; omega)
  have h0 : ¬ (pwdWindow ≤ 4 * (addr.toNat / 4) ∧ 4 * (addr.toNat / 4) < 0x020000) := by
    rw [h]; unfold pwdWindow; omega
  have h1 : ¬ (msgWindow ≤ 4 * (addr.toNat / 4) ∧ 4 * (addr.toNat / 4) < 0x200000) := by
    rw [h]; unfold msgWindow; omega
  have h3 : outWindow ≤ 4 * (addr.toNat / 4) := by rw [h]; unfold outWindow; omega
  have h2 : (4 * (addr.toNat / 4) - outWindow) / 4 = i := by rw [h]; unfold outWindow; omega
  simp only [target, hnone, h0, if_false, h1, h3, if_true, h2]

/-- Between the registers and the windows nothing is mapped. -/
theorem target_gap (p : Params) {addr : PortAddr} (hreg : ∀ r, regOffset r ≠ 4 * (addr.toNat / 4))
    (h : 4 * (addr.toNat / 4) < 0x010000 ∨
      (0x020000 ≤ 4 * (addr.toNat / 4) ∧ 4 * (addr.toNat / 4) < 0x100000)) :
    target p addr = .unmapped := by
  have h0 : ¬ (pwdWindow ≤ 4 * (addr.toNat / 4) ∧ 4 * (addr.toNat / 4) < 0x020000) := by
    unfold pwdWindow; omega
  have h1 : ¬ (msgWindow ≤ 4 * (addr.toNat / 4) ∧ 4 * (addr.toNat / 4) < 0x200000) := by
    unfold msgWindow; omega
  have h3 : ¬ outWindow ≤ 4 * (addr.toNat / 4) := by unfold outWindow; omega
  simp only [target, find_reg_none hreg, h0, if_false, h1, h3]

/-- An existing window entry lies where its window is, below the buffer's size. -/
theorem target_pwd_inv {p : Params} {addr : PortAddr} {i : Nat} (h : target p addr = .pwd i) :
    addr.toNat / 4 = 0x4000 + i ∧ i < p.pwdMax := by
  unfold target at h
  simp only at h
  split at h
  · simp at h
  · split at h
    · rename_i hw
      unfold pwdWindow at h hw
      split at h
      · injection h with h
        omega
      · simp at h
    · split at h
      · split at h <;> simp at h
      · split at h
        · split at h <;> simp at h
        · simp at h

theorem target_msg_inv {p : Params} {addr : PortAddr} {i : Nat} (h : target p addr = .msg i) :
    addr.toNat / 4 = 0x40000 + i ∧ i < p.msgMax := by
  unfold target at h
  simp only at h
  split at h
  · simp at h
  · split at h
    · split at h <;> simp at h
    · split at h
      · rename_i hw
        unfold msgWindow at h hw
        split at h
        · injection h with h
          omega
        · simp at h
      · split at h
        · split at h <;> simp at h
        · simp at h

theorem toNat_windowAddr {base i : Nat} (h : base + 4 * i < 2 ^ 22) : (windowAddr base i).toNat = base + 4 * i := by
  rw [windowAddr, BitVec.toNat_ofNat, Nat.mod_eq_of_lt h]

/-- Everything a host write can do. -/
theorem hostWrite_cases (addr : PortAddr) (v : Word) (s : State) :
    (target s.params addr = .reg .status ∧ hostWrite addr v s = { s with status := clearByOnes v s.status }) ∨
    (busy s = true ∧ hostWrite addr v s = { s with status := { s.status with bwerr := true } }) ∨
    (busy s = false ∧ hostWrite addr v s = storeWord (target s.params addr) v s) := by
  by_cases h : target s.params addr = .reg .status
  · exact .inl ⟨h, by simp [hostWrite, h]⟩
  · cases hb : busy s
    · exact .inr (.inr ⟨rfl, by simp [hostWrite, h, hb]⟩)
    · exact .inr (.inl ⟨rfl, by simp [hostWrite, h, hb]⟩)

/-- A host write made while BUSY touches DONE and BWERR at most. -/
theorem hostWrite_busy {s : State} (hb : busy s = true) (addr : PortAddr) (v : Word) :
    ∃ d b, hostWrite addr v s = { s with status := { s.status with bwerr := b, done := d } } := by
  rcases hostWrite_cases addr v s with ⟨-, h⟩ | ⟨-, h⟩ | ⟨h, -⟩
  · exact ⟨_, _, h⟩
  · exact ⟨s.status.done, true, h⟩
  · simp [hb] at h

/-- The kinds of effect of a host write made while IDLE. -/
theorem storeWord_cases (t : Target) (v : Word) (s : State) :
    storeWord t v s = s ∨ (t = .reg .cmd ∧ storeWord t v s = accept v s) ∨
    (∃ c w h p m, storeWord t v s = { s with ctrl := c, width := w, height := h, pwdLen := p, msgLen := m }) ∨
    (∃ i, t = .pwd i ∧ storeWord t v s = { s with pwd := s.pwd.write i (v.setWidth 8) }) ∨
    (∃ i, t = .msg i ∧ storeWord t v s = { s with msg := s.msg.write i (v.setWidth 8) }) := by
  cases t with
  | reg r =>
    cases r with
    | ctrl => exact .inr (.inr (.inl ⟨ctrlOfWord v, s.width, s.height, s.pwdLen, s.msgLen, rfl⟩))
    | cmd => exact .inr (.inl ⟨rfl, rfl⟩)
    | width => exact .inr (.inr (.inl ⟨s.ctrl, v, s.height, s.pwdLen, s.msgLen, rfl⟩))
    | height => exact .inr (.inr (.inl ⟨s.ctrl, s.width, v, s.pwdLen, s.msgLen, rfl⟩))
    | pwdLen => exact .inr (.inr (.inl ⟨s.ctrl, s.width, s.height, v, s.msgLen, rfl⟩))
    | msgLen => exact .inr (.inr (.inl ⟨s.ctrl, s.width, s.height, s.pwdLen, v, rfl⟩))
    | id => exact .inl rfl
    | status => exact .inl rfl
    | outLen => exact .inl rfl
    | result => exact .inl rfl
    | cursor => exact .inl rfl
    | carMax => exact .inl rfl
    | msgMax => exact .inl rfl
    | pwdMax => exact .inl rfl
    | outMax => exact .inl rfl
  | pwd i => exact .inr (.inr (.inr (.inl ⟨i, rfl, rfl⟩)))
  | msg i => exact .inr (.inr (.inr (.inr ⟨i, rfl, rfl⟩)))
  | out i => exact .inl rfl
  | unmapped => exact .inl rfl

end Sys2Proof.Machine
end

