-- ==== Sys2Proof/Laws/Memory.lean ====
section
/-! SUPPORT. What the byte-array operations do: read after write, the canonical form and the bounds they keep, and one
spec lemma each for `storeBytes`, `pixelWrite` and `packPixels`. -/

namespace Sys2Proof.Machine

@[simp] theorem Memory.read?_nil (a : Nat) : Memory.read? [] a = none := rfl

theorem Memory.read?_cons (c : Host.Cell) (m : Memory) (a : Nat) :
    Memory.read? (c :: m) a = if c.1 = a then some c.2 else Memory.read? m a := rfl

@[simp] theorem Memory.read?_write_same (m : Memory) (a : Nat) (v : Byte) : (m.write a v).read? a = some v := by
  induction m with
  | nil => simp [Memory.write, Memory.read?]
  | cons c m ih =>
    unfold Memory.write
    split
    · simp [Memory.read?]
    · split
      · simp [Memory.read?]
      · have : c.1 ≠ a := by omega
        simp [Memory.read?, this, ih]

theorem Memory.read?_write_ne (m : Memory) {a b : Nat} (v : Byte) (h : b ≠ a) :
    (m.write a v).read? b = m.read? b := by
  induction m with
  | nil => simp [Memory.write, Memory.read?, Ne.symm h]
  | cons c m ih =>
    unfold Memory.write
    split
    · simp [Memory.read?, Ne.symm h]
    · split
      · rename_i _ hac
        simp [Memory.read?, ← hac, Ne.symm h]
      · simp [Memory.read?, ih]

/-- One write, as seen by every read. -/
theorem Memory.read?_write (m : Memory) (a b : Nat) (v : Byte) :
    (m.write a v).read? b = if b = a then some v else m.read? b := by
  split
  · subst b; simp
  · exact Memory.read?_write_ne m v ‹_›

/-- Which indices a write lists. -/
theorem Memory.mem_write {m : Memory} {a : Nat} {v : Byte} {c : Host.Cell} (h : c ∈ m.write a v) :
    c = (a, v) ∨ c ∈ m := by
  induction m with
  | nil => simpa [Memory.write] using h
  | cons d m ih =>
    unfold Memory.write at h
    split at h
    · simpa using h
    · split at h
      · rcases List.mem_cons.1 h with h | h
        · exact .inl h
        · exact .inr (List.mem_cons_of_mem _ h)
      · rcases List.mem_cons.1 h with h | h
        · exact .inr (h ▸ List.mem_cons_self)
        · exact (ih h).imp_right (List.mem_cons_of_mem _)

theorem Memory.wf_write {m : Memory} (h : m.wf) (a : Nat) (v : Byte) : (m.write a v).wf := by
  induction m with
  | nil => simp [Memory.write, Memory.wf]
  | cons d m ih =>
    obtain ⟨hd, hm⟩ := List.pairwise_cons.1 h
    unfold Memory.write
    split
    · refine List.pairwise_cons.2 ⟨?_, h⟩
      intro c hc
      rcases List.mem_cons.1 hc with rfl | hc
      · assumption
      · exact Nat.lt_trans ‹_› (hd c hc)
    · split
      · refine List.pairwise_cons.2 ⟨?_, hm⟩
        intro c hc
        have := hd c hc
        simp only
        omega
      · refine List.pairwise_cons.2 ⟨?_, ih hm⟩
        intro c hc
        rcases Memory.mem_write hc with rfl | hc
        · simp only
          omega
        · exact hd c hc

/-- A write at `a` keeps every listed index below the size, if `a` is. -/
theorem Memory.below_write {m : Memory} {size : Nat} (h : ∀ c ∈ m, c.1 < size) {a : Nat} (ha : a < size) (v : Byte) :
    ∀ c ∈ m.write a v, c.1 < size := by
  intro c hc
  rcases Memory.mem_write hc with rfl | hc
  · exact ha
  · exact h c hc

/-! ### `storeBytes` -/

/-- Everything `storeBytes` does to a read. -/
theorem storeBytes_read? (f : Nat → Byte) (is : List Nat) (m : Memory) (a : Nat) :
    (storeBytes f is m).read? a = if a ∈ is then some (f a) else m.read? a := by
  induction is generalizing m with
  | nil => simp [storeBytes]
  | cons i is ih =>
    rw [storeBytes, ih, Memory.read?_write]
    by_cases h1 : a ∈ is <;> by_cases h2 : a = i <;> simp [h1, h2]

theorem storeBytes_wf (f : Nat → Byte) (is : List Nat) {m : Memory} (h : m.wf) : (storeBytes f is m).wf := by
  induction is generalizing m with
  | nil => exact h
  | cons i is ih => exact ih (Memory.wf_write h _ _)

theorem storeBytes_below (f : Nat → Byte) {is : List Nat} {size : Nat} (his : ∀ i ∈ is, i < size) {m : Memory}
    (h : ∀ c ∈ m, c.1 < size) : ∀ c ∈ storeBytes f is m, c.1 < size := by
  induction is generalizing m with
  | nil => exact h
  | cons i is ih =>
    exact ih (fun j hj => his j (List.mem_cons_of_mem _ hj))
      (Memory.below_write h (his i List.mem_cons_self) _)

/-! ### The Carrier Store -/

theorem csRead_csWrite (cs : Memory) (a k : Nat) (v : Byte) :
    csRead (csWrite cs a v) k = if k = a then v else csRead cs k := by
  unfold csRead csWrite
  rw [Memory.read?_write]
  split <;> rfl

/-- A pixel with bit 0 replaced by `b` (44_pack.md R193). -/
theorem getLsbD_pixel (v : Byte) (b : Bool) (n : Nat) :
    ((v &&& 0xFE#8) ||| (BitVec.ofBool b).setWidth 8).getLsbD n = if n = 0 then b else v.getLsbD n := by
  by_cases h8 : n < 8
  · have : n = 0 ∨ n = 1 ∨ n = 2 ∨ n = 3 ∨ n = 4 ∨ n = 5 ∨ n = 6 ∨ n = 7 := by omega
    rcases this with rfl | rfl | rfl | rfl | rfl | rfl | rfl | rfl <;> cases b <;> simp
  · have h0 : n ≠ 0 := by omega
    rw [if_neg h0, BitVec.getLsbD_of_ge _ _ (by omega), BitVec.getLsbD_of_ge _ _ (by omega)]

/-- One pixel write, as seen by every pixel read. -/
theorem csRead_pixelWrite (cs : Memory) (j k : Nat) (b : Bool) :
    csRead (pixelWrite cs j b) k =
      if k = j then (csRead cs j &&& 0xFE#8) ||| (BitVec.ofBool b).setWidth 8 else csRead cs k :=
  csRead_csWrite _ _ _ _

/-- Writing the pixels of a list without repeats, each once: what every pixel reads afterwards. -/
theorem csRead_foldl_pixelWrite (bitAt : Nat → Bool) {js : List Nat} (hnd : js.Nodup) (cs : Memory) (k : Nat) :
    csRead (js.foldl (fun cs j => pixelWrite cs j (bitAt j)) cs) k =
      if k ∈ js then (csRead cs k &&& 0xFE#8) ||| (BitVec.ofBool (bitAt k)).setWidth 8 else csRead cs k := by
  induction js generalizing cs with
  | nil => simp
  | cons j js ih =>
    obtain ⟨hj, hjs⟩ := List.nodup_cons.1 hnd
    rw [List.foldl_cons, ih hjs, csRead_pixelWrite]
    by_cases hkj : k = j
    · subst k; simp [hj]
    · simp [hkj]

theorem wf_foldl_pixelWrite (bitAt : Nat → Bool) (js : List Nat) {cs : Memory} (h : cs.wf) :
    (js.foldl (fun cs j => pixelWrite cs j (bitAt j)) cs).wf := by
  induction js generalizing cs with
  | nil => exact h
  | cons j js ih => exact ih (Memory.wf_write h _ _)

theorem below_foldl_pixelWrite (bitAt : Nat → Bool) {js : List Nat} {size : Nat} (hjs : ∀ j ∈ js, j < size)
    {cs : Memory} (h : ∀ c ∈ cs, c.1 < size) :
    ∀ c ∈ js.foldl (fun cs j => pixelWrite cs j (bitAt j)) cs, c.1 < size := by
  induction js generalizing cs with
  | nil => exact h
  | cons j js ih =>
    exact ih (fun i hi => hjs i (List.mem_cons_of_mem _ hi))
      (Memory.below_write h (hjs j List.mem_cons_self) _)

/-- The packer's loop, when no pixel is at or above the limit, is the plain sequence of pixel writes: its assertion
(44_pack.md R196) does not fail. -/
theorem packPixels_eq_foldl (bitAt : Nat → Bool) {limit : Nat} {js : List Nat} (h : ∀ j ∈ js, j < limit)
    (cs : Memory) :
    packPixels bitAt limit js cs = some (js.foldl (fun cs j => pixelWrite cs j (bitAt j)) cs) := by
  induction js generalizing cs with
  | nil => rfl
  | cons j js ih =>
    rw [packPixels, if_pos (h j List.mem_cons_self), ih (fun i hi => h i (List.mem_cons_of_mem _ hi)),
      List.foldl_cons]

end Sys2Proof.Machine
end

