-- ==== Sys2Proof/Laws/Exec.lean ====
section
/-! SUPPORT. Everything a command's completion can do, said once (`exec_eq`): it always answers a next state, which is a
raised error with nothing else changed, or the command's own effect (`performed`). -/

namespace Sys2Proof.Machine

theorem valid_hide_iff (s : State) : valid .hide s = true ↔ pwdLenOk s ∧ msgLenOk s ∧ carrierOk s := by
  simp [valid, and_assoc]
theorem valid_showCmd_iff (s : State) : valid .showCmd s = true ↔ pwdLenOk s ∧ carrierOk s := by simp [valid]
theorem valid_chkcap_iff (s : State) : valid .chkcap s = true ↔ msgLenOk s ∧ carrierOk s := by simp [valid]
theorem valid_maskat_iff (k : Nat) (s : State) : valid (.maskat k) s = true ↔ pwdLenOk s := by simp [valid]
theorem valid_frame_iff (s : State) : valid .frame s = true ↔ pwdLenOk s ∧ msgLenOk s := by simp [valid]
theorem valid_unframe_iff (s : State) : valid .unframe s = true ↔ pwdLenOk s ∧ msgLenOk s := by simp [valid]

/-- The carrier a successful HIDE leaves: its pixel writes in raster order (44_pack.md R195). -/
def packedCarrier (s : State) : Memory :=
  (List.range (framedBits s)).foldl (fun cs j => pixelWrite cs j (streamBit s j)) s.carrier

/-- The error a command ends with, if any (40_command.md R115). -/
def commandError (i : Instr) (s : State) : Option ErrorCode :=
  if valid i s then if (i = .hide ∨ i = .chkcap) ∧ ¬ capacityOk s then some .capacity else none
  else some .invalidArgument

/-- A command's own effect, before `end()`. -/
def performed (i : Instr) (s : State) : State :=
  match i with
  | .nop => s
  | .hide =>
    { s with
      status := { s.status with capOk := true }
      carrier := packedCarrier s
      cursor := BitVec.ofNat 32 (framedBits s) }
  | .showCmd =>
    { s with
      out := storeBytes (fun i => (scanCarrier s).buf.getD i 0x00#8 ^^^ maskByte s i)
        (List.range (scanLength (scanCarrier s))) s.out
      outLen := BitVec.ofNat 32 (scanLength (scanCarrier s))
      cursor := BitVec.ofNat 32 (scanCarrier s).k
      status := { s.status with term := (scanCarrier s).found } }
  | .chkcap => { s with status := { s.status with capOk := true } }
  | .maskat index => { s with result := (maskByte s index).setWidth 32 }
  | .frame =>
    { s with
      out := storeBytes (framedByte s) (List.range (framedLength s)) s.out
      outLen := BitVec.ofNat 32 (framedLength s) }
  | .unframe =>
    { s with
      out := storeBytes (unframedByte s) (List.range (messageLength s)) s.out
      outLen := BitVec.ofNat 32 (messageLength s) }

/-- The state a command ends in. -/
def ended (i : Instr) (s : State) : State :=
  match commandError i s with
  | some e => raiseError e s
  | none => finish (performed i s)

theorem exec_eq (i : Instr) (s : State) : exec i s = .next (ended i s) := by
  cases i with
  | nop => rfl
  | hide =>
    by_cases hv : valid .hide s = true <;> by_cases hc : capacityOk s
    · have hlim : ∀ j ∈ List.range (framedBits s), j < capacity s := fun j hj =>
        Nat.lt_of_lt_of_le (List.mem_range.1 hj) hc
      simp [exec, execHide, ended, commandError, hv, hc, packPixels_eq_foldl _ hlim, performed, packedCarrier]
    all_goals simp [exec, execHide, ended, commandError, hv, hc]
  | showCmd => by_cases hv : valid .showCmd s = true <;> simp [exec, execShow, ended, commandError, performed, hv]
  | chkcap =>
    by_cases hv : valid .chkcap s = true <;> by_cases hc : capacityOk s <;>
      simp [exec, execChkcap, ended, commandError, performed, hv, hc]
  | maskat k => by_cases hv : valid (.maskat k) s = true <;> simp [exec, execMaskat, ended, commandError, performed, hv]
  | frame => by_cases hv : valid .frame s = true <;> simp [exec, execFrame, ended, commandError, performed, hv]
  | unframe => by_cases hv : valid .unframe s = true <;> simp [exec, execUnframe, ended, commandError, performed, hv]

theorem exec_next_iff (i : Instr) (s t : State) : exec i s = .next t ↔ ended i s = t := by
  rw [exec_eq]
  constructor
  · intro h; injection h
  · rintro rfl; rfl

theorem ended_of_error {i : Instr} {s : State} {e : ErrorCode} (h : commandError i s = some e) :
    ended i s = raiseError e s := by
  simp [ended, h]

theorem ended_of_success {i : Instr} {s : State} (h : commandError i s = none) : ended i s = finish (performed i s) := by
  simp [ended, h]

/-- The two ways a command can end. -/
theorem ended_cases (i : Instr) (s : State) :
    (∃ e, commandError i s = some e ∧ ended i s = raiseError e s) ∨
      (commandError i s = none ∧ ended i s = finish (performed i s)) := by
  cases h : commandError i s with
  | some e => exact .inl ⟨e, rfl, ended_of_error h⟩
  | none => exact .inr ⟨rfl, ended_of_success h⟩

/-- A command's only errors are CAPACITY and INVALID_ARGUMENT. -/
theorem commandError_cases {i : Instr} {s : State} {e : ErrorCode} (h : commandError i s = some e) :
    e = .invalidArgument ∨ e = .capacity := by
  unfold commandError at h
  split at h
  · split at h
    · exact .inr (by simpa using h.symm)
    · simp at h
  · exact .inl (by simpa using h.symm)

theorem valid_of_success {i : Instr} {s : State} (h : commandError i s = none) : valid i s = true := by
  unfold commandError at h
  split at h
  · assumption
  · simp at h

theorem capacityOk_of_success {s : State} (h : commandError .hide s = none) : capacityOk s := by
  have hv := valid_of_success h
  by_contra hc
  simp [commandError, hv, hc] at h

theorem commandError_none_of_valid {i : Instr} {s : State} (hv : valid i s = true) (hh : i ≠ .hide) (hc : i ≠ .chkcap) :
    commandError i s = none := by
  simp [commandError, hv, hh, hc]

theorem commandError_none_of_fits {i : Instr} {s : State} (hv : valid i s = true) (hc : capacityOk s) :
    commandError i s = none := by
  simp [commandError, hv, hc]

/-! ### What a command's own effect leaves alone -/

section Frame
variable (i : Instr) (s : State)

@[simp] theorem performed_params : (performed i s).params = s.params := by cases i <;> rfl
@[simp] theorem performed_ctrl : (performed i s).ctrl = s.ctrl := by cases i <;> rfl
@[simp] theorem performed_width : (performed i s).width = s.width := by cases i <;> rfl
@[simp] theorem performed_height : (performed i s).height = s.height := by cases i <;> rfl
@[simp] theorem performed_pwdLen : (performed i s).pwdLen = s.pwdLen := by cases i <;> rfl
@[simp] theorem performed_msgLen : (performed i s).msgLen = s.msgLen := by cases i <;> rfl
@[simp] theorem performed_seq : (performed i s).seq = s.seq := by cases i <;> rfl
@[simp] theorem performed_pwd : (performed i s).pwd = s.pwd := by cases i <;> rfl
@[simp] theorem performed_msg : (performed i s).msg = s.msg := by cases i <;> rfl
@[simp] theorem performed_schedule : (performed i s).schedule = s.schedule := by cases i <;> rfl
@[simp] theorem performed_reads : (performed i s).reads = s.reads := by cases i <;> rfl
@[simp] theorem performed_saved : (performed i s).saved = s.saved := by cases i <;> rfl
@[simp] theorem performed_draws : (performed i s).draws = s.draws := by cases i <;> rfl
@[simp] theorem performed_resets : (performed i s).resets = s.resets := by cases i <;> rfl
@[simp] theorem performed_bwerr : (performed i s).status.bwerr = s.status.bwerr := by cases i <;> rfl
@[simp] theorem performed_done : (performed i s).status.done = s.status.done := by cases i <;> rfl
@[simp] theorem performed_err : (performed i s).status.err = s.status.err := by cases i <;> rfl
@[simp] theorem performed_errcode : (performed i s).status.errcode = s.status.errcode := by cases i <;> rfl

end Frame

/-- The schedule, what has been read, the draws and BWERR are nothing to a command: they come through its completion
as they went in. -/
theorem ended_outside (i : Instr) (s : State) (sc : List Turn) (rd : List Word) (n : Nat) (bw : Bool) (dn : Bool) :
    ended i { s with
      schedule := sc, reads := rd, draws := n, status := { s.status with bwerr := bw, done := dn } } =
      { ended i s with
        schedule := sc, reads := rd, draws := n, status := { (ended i s).status with bwerr := bw } } := by
  unfold ended
  rw [show commandError i { s with
      schedule := sc, reads := rd, draws := n, status := { s.status with bwerr := bw, done := dn } } =
      commandError i s from rfl]
  cases commandError i s with
  | some e => rfl
  | none => cases i <;> rfl

end Sys2Proof.Machine
end

