-- ==== Sys2Proof/Laws/Scan.lean ====
section
/-! SUPPORT. The scan of a SHOW, said once: while no terminator has been found it holds the completed bytes of
45_unpack.md R211 (`scanPixels_without_terminator`), and it stops after the first one (`scanPixels_to_terminator`). -/

namespace Sys2Proof.Machine

section Scan
variable (order : BitOrder) (bitAt : Nat → Bool)

/-- Completed byte `m` of a bit stream (45_unpack.md R211). -/
def streamByte (m : Nat) : Byte :=
  BitVec.ofNat 8 (((List.range 8).map (fun t => (bitAt (8 * m + t)).toNat <<< bitWeight order t)).sum)

/-- The byte being assembled after `bc` of the bits of byte `m`. -/
def partialByte (m : Nat) : Nat → Byte
  | 0 => 0x00#8
  | bc + 1 => addBit order (partialByte m bc) bc (bitAt (8 * m + bc))

/-- The terminator ends at byte `m` of a bit stream (45_unpack.md R212). -/
abbrev streamTerminator (m : Nat) : Prop :=
  2 ≤ m ∧ streamByte order bitAt (m - 2) = 0x00#8 ∧ streamByte order bitAt (m - 1) = 0x00#8 ∧
    streamByte order bitAt m = 0x03#8

/-- The cursor after `k` pixels without a terminator. -/
def scanAt (k : Nat) : Scan :=
  { k := k
    bc := k % 8
    acc := partialByte order bitAt (k / 8) (k % 8)
    buf := (List.range (k / 8)).map (streamByte order bitAt)
    found := false }

/-- Eight bits shifted into a byte, one after the other, are the sum of 45_unpack.md R211. -/
theorem addBit_eight (b0 b1 b2 b3 b4 b5 b6 b7 : Bool) :
    addBit order (addBit order (addBit order (addBit order (addBit order (addBit order (addBit order
      (addBit order 0x00#8 0 b0) 1 b1) 2 b2) 3 b3) 4 b4) 5 b5) 6 b6) 7 b7 =
      BitVec.ofNat 8 (b0.toNat <<< bitWeight order 0 + (b1.toNat <<< bitWeight order 1 +
        (b2.toNat <<< bitWeight order 2 + (b3.toNat <<< bitWeight order 3 + (b4.toNat <<< bitWeight order 4 +
        (b5.toNat <<< bitWeight order 5 + (b6.toNat <<< bitWeight order 6 + b7.toNat <<< bitWeight order 7))))))) := by
  cases order <;> revert b0 b1 b2 b3 b4 b5 b6 b7 <;> decide

theorem partialByte_eight (m : Nat) : partialByte order bitAt m 8 = streamByte order bitAt m := by
  have h := addBit_eight order (bitAt (8 * m)) (bitAt (8 * m + 1)) (bitAt (8 * m + 2)) (bitAt (8 * m + 3))
    (bitAt (8 * m + 4)) (bitAt (8 * m + 5)) (bitAt (8 * m + 6)) (bitAt (8 * m + 7))
  simpa [partialByte, streamByte, List.range_succ, Nat.add_assoc] using h

/-- The check of 45_unpack.md R212 on the completed bytes. -/
theorem endsWithTerminator_map (f : Nat → Byte) (m : Nat) :
    endsWithTerminator ((List.range (m + 1)).map f) =
      decide (2 ≤ m ∧ f (m - 2) = 0x00#8 ∧ f (m - 1) = 0x00#8 ∧ f m = 0x03#8) := by
  by_cases hm : 2 ≤ m
  · obtain ⟨j, rfl⟩ : ∃ j, m = j + 2 := ⟨m - 2, by omega⟩
    have hdrop : ((List.range (j + 2 + 1)).map f).drop j = [f j, f (j + 1), f (j + 2)] := by
      simp [List.range_succ]
    simp [endsWithTerminator, terminator, hdrop]
  · have : ¬ 3 ≤ m + 1 := by omega
    simp [endsWithTerminator, hm, this]

/-- One pixel of the scan. -/
theorem scanBit_scanAt (k : Nat) :
    scanBit order (bitAt k) (scanAt order bitAt k) =
      { scanAt order bitAt (k + 1) with
        found := decide (k % 8 = 7 ∧ streamTerminator order bitAt (k / 8)) } := by
  have hk : 8 * (k / 8) + k % 8 = k := Nat.div_add_mod k 8
  by_cases h7 : k % 8 = 7
  · have hdiv : (k + 1) / 8 = k / 8 + 1 := by omega
    have hmod : (k + 1) % 8 = 0 := by omega
    have hbyte : addBit order (partialByte order bitAt (k / 8) 7) 7 (bitAt k) = streamByte order bitAt (k / 8) := by
      rw [← partialByte_eight order bitAt (k / 8)]
      show _ = addBit order (partialByte order bitAt (k / 8) 7) 7 (bitAt (8 * (k / 8) + 7))
      rw [show 8 * (k / 8) + 7 = k by omega]
    have hbuf : (List.range (k / 8)).map (streamByte order bitAt) ++ [streamByte order bitAt (k / 8)] =
        (List.range (k / 8 + 1)).map (streamByte order bitAt) := by
      simp [List.range_succ]
    simp only [scanBit, scanAt, h7, hdiv, hmod]
    rw [hbyte, hbuf, endsWithTerminator_map]
    simp [partialByte]
  · have hdiv : (k + 1) / 8 = k / 8 := by omega
    have hmod : (k + 1) % 8 = k % 8 + 1 := by omega
    have hne : ¬ k % 8 + 1 = 8 := by omega
    simp only [scanBit, scanAt, hdiv, hmod, hne, h7, if_neg, partialByte, hk, not_false_eq_true, false_and,
      decide_false]

/-- Without a terminator among the bytes the pixels complete, the scan reads every pixel. -/
theorem scanPixels_without_terminator (n k : Nat)
    (h : ∀ m, k < 8 * (m + 1) → 8 * (m + 1) ≤ k + n → ¬ streamTerminator order bitAt m) :
    scanPixels order bitAt n (scanAt order bitAt k) = scanAt order bitAt (k + n) := by
  induction n generalizing k with
  | zero => rfl
  | succ n ih =>
    have hf : decide (k % 8 = 7 ∧ streamTerminator order bitAt (k / 8)) = false := by
      rw [decide_eq_false_iff_not]
      rintro ⟨h7, ht⟩
      exact h (k / 8) (by omega) (by omega) ht
    have hstep := scanBit_scanAt order bitAt k
    rw [hf] at hstep
    have hsc : scanPixels order bitAt (n + 1) (scanAt order bitAt k) =
        scanPixels order bitAt n (scanAt order bitAt (k + 1)) := by
      show (if (scanAt order bitAt k).found then _ else _) = _
      rw [if_neg (by simp [scanAt])]
      exact congrArg _ hstep
    rw [hsc, ih (k + 1) (fun m h1 h2 => h m (by omega) (by omega))]
    congr 1
    omega

/-- A scan that has found the terminator reads no more. -/
theorem scanPixels_found (n : Nat) {c : Scan} (h : c.found = true) : scanPixels order bitAt n c = c := by
  cases n with
  | zero => rfl
  | succ n => simp [scanPixels, h]

/-- The scan stops with the first byte that completes a terminator. -/
theorem scanPixels_to_terminator (n k m : Nat) (hk : k < 8 * (m + 1)) (hn : 8 * (m + 1) ≤ k + n)
    (ht : streamTerminator order bitAt m)
    (hfirst : ∀ m', m' < m → k < 8 * (m' + 1) → ¬ streamTerminator order bitAt m') :
    scanPixels order bitAt n (scanAt order bitAt k) =
      { scanAt order bitAt (8 * (m + 1)) with found := true } := by
  induction n generalizing k with
  | zero => omega
  | succ n ih =>
    have hsc : scanPixels order bitAt (n + 1) (scanAt order bitAt k) =
        scanPixels order bitAt n (scanBit order (bitAt k) (scanAt order bitAt k)) := by
      show (if (scanAt order bitAt k).found then _ else _) = _
      rw [if_neg (by simp [scanAt])]
      rfl
    rw [hsc, scanBit_scanAt]
    by_cases hlast : k + 1 = 8 * (m + 1)
    · have hd : decide (k % 8 = 7 ∧ streamTerminator order bitAt (k / 8)) = true := by
        have hkm : k / 8 = m := by omega
        rw [decide_eq_true_iff, hkm]
        exact ⟨by omega, ht⟩
      rw [hd, hlast]
      exact scanPixels_found order bitAt n rfl
    · have hd : decide (k % 8 = 7 ∧ streamTerminator order bitAt (k / 8)) = false := by
        rw [decide_eq_false_iff_not]
        rintro ⟨h7, h⟩
        exact hfirst (k / 8) (by omega) (by omega) h
      rw [hd]
      exact ih (k + 1) (by omega) (by omega) (fun m' h1 h2 => hfirst m' h1 (by omega))

end Scan

theorem scanStart_eq (order : BitOrder) (bitAt : Nat → Bool) : scanStart = scanAt order bitAt 0 := rfl

/-- A whole scan without a terminator. -/
theorem scanCarrier_without_terminator {s : State}
    (h : ∀ m, 8 * (m + 1) ≤ capacity s → ¬ terminatorEndsAt s m) :
    scanCarrier s = scanAt (operands s).ctrl.bitOrder (carrierBit s) (capacity s) := by
  have := scanPixels_without_terminator (operands s).ctrl.bitOrder (carrierBit s) (capacity s) 0
    (fun m _ hm => h m (by omega))
  rw [Nat.zero_add] at this
  exact this

/-- A whole scan whose first terminator ends at byte `m`. -/
theorem scanCarrier_to_terminator {s : State} {m : Nat} (hm : 8 * (m + 1) ≤ capacity s) (ht : terminatorEndsAt s m)
    (hfirst : ∀ m', m' < m → ¬ terminatorEndsAt s m') :
    scanCarrier s =
      { scanAt (operands s).ctrl.bitOrder (carrierBit s) (8 * (m + 1)) with found := true } :=
  scanPixels_to_terminator (operands s).ctrl.bitOrder (carrierBit s) (capacity s) 0 m (by omega) (by omega) ht
    (fun m' h _ => hfirst m' h)

/-- Every scan is one of the two. -/
theorem scanCarrier_cases (s : State) :
    (∃ m, 8 * (m + 1) ≤ capacity s ∧ terminatorEndsAt s m ∧ (∀ m', m' < m → ¬ terminatorEndsAt s m') ∧
      scanCarrier s = { scanAt (operands s).ctrl.bitOrder (carrierBit s) (8 * (m + 1)) with found := true }) ∨
    ((∀ m, 8 * (m + 1) ≤ capacity s → ¬ terminatorEndsAt s m) ∧
      scanCarrier s = scanAt (operands s).ctrl.bitOrder (carrierBit s) (capacity s)) := by
  by_cases h : ∃ m, 8 * (m + 1) ≤ capacity s ∧ terminatorEndsAt s m
  · classical
    have hm := Nat.find_spec h
    have hmin := fun m' (hlt : m' < Nat.find h) => Nat.find_min h hlt
    have hfirst : ∀ m', m' < Nat.find h → ¬ terminatorEndsAt s m' := fun m' hlt ht =>
      hmin m' hlt ⟨by omega, ht⟩
    exact .inl ⟨Nat.find h, hm.1, hm.2, hfirst, scanCarrier_to_terminator hm.1 hm.2 hfirst⟩
  · have hnone : ∀ m, 8 * (m + 1) ≤ capacity s → ¬ terminatorEndsAt s m := fun m hm ht => h ⟨m, hm, ht⟩
    exact .inr ⟨hnone, scanCarrier_without_terminator hnone⟩

/-- The result of a SHOW fits: at most `N div 8` bytes, and at most `N` pixels read. -/
theorem scanCarrier_bounds (s : State) :
    scanLength (scanCarrier s) ≤ capacity s / 8 ∧ (scanCarrier s).k ≤ capacity s := by
  rcases scanCarrier_cases s with ⟨m, hm, -, -, h⟩ | ⟨-, h⟩
  · rw [h]
    simp [scanLength, scanAt]
    omega
  · rw [h]
    simp [scanLength, scanAt]

end Sys2Proof.Machine
end

