-- ==== Sys2Proof/Laws/Command.lean ====
section
/-! SUPPORT. Lemmas about the mask, the framed payload, the stream and what a HIDE's stream reads back as. -/

namespace Sys2Proof.Machine

/-- The mask is a function of the cipher setting, the password length and the password's bytes (41_cipher.md R133). -/
theorem maskByte_congr {s s' : State} (hc : (operands s').ctrl.cipherEn = (operands s).ctrl.cipherEn)
    (hl : (operands s').pwdLen = (operands s).pwdLen)
    (hp : ∀ i, i < (operands s).pwdLen.toNat → pwdByte s' i = pwdByte s i) (i : Nat) :
    maskByte s' i = maskByte s i := by
  have hlen : passwordLength s' = passwordLength s := by simp [passwordLength, hl]
  unfold maskByte
  rw [hc, hlen]
  by_cases h : (operands s).ctrl.cipherEn = true ∧ 0 < passwordLength s
  · rw [if_pos h, if_pos h]
    exact hp _ (Nat.mod_lt _ h.2)
  · rw [if_neg h, if_neg h]

theorem framedByte_message {s : State} {i : Nat} (h : i < messageLength s) :
    framedByte s i = msgByte s i ^^^ maskByte s i := by
  simp [framedByte, h]

theorem framedByte_terminator (s : State) :
    framedByte s (messageLength s) = 0x00#8 ∧ framedByte s (messageLength s + 1) = 0x00#8 ∧
      framedByte s (messageLength s + 2) = 0x03#8 := by
  refine ⟨?_, ?_, ?_⟩
  · simp [framedByte, terminator]
  · rw [framedByte, if_neg (by omega), Nat.add_sub_cancel_left]
    rfl
  · rw [framedByte, if_neg (by omega), Nat.add_sub_cancel_left]
    rfl

/-- Summing a byte's stream bits with their weights gives the byte back (45_unpack.md R211 over 44_pack.md R191,
R192). -/
theorem sum_bitOfByte (order : BitOrder) (b : Byte) :
    BitVec.ofNat 8 (((List.range 8).map (fun t => (bitOfByte order b t).toNat <<< bitWeight order t)).sum) = b := by
  cases order <;> revert b <;> decide

/-- Pixels that hold a byte's stream bits complete that byte. -/
theorem completedByte_eq {s : State} {m : Nat} {b : Byte}
    (h : ∀ t, t < 8 → carrierBit s (8 * m + t) = bitOfByte (operands s).ctrl.bitOrder b t) : completedByte s m = b := by
  rw [← sum_bitOfByte (operands s).ctrl.bitOrder b]
  unfold completedByte
  congr 2
  apply List.map_congr_left
  intro t ht
  rw [h t (List.mem_range.1 ht)]

theorem carrierByte_packed (s : State) (k : Nat) :
    csRead (packedCarrier s) k =
      if k < framedBits s then (carrierByte s k &&& 0xFE#8) ||| (BitVec.ofBool (streamBit s k)).setWidth 8
      else carrierByte s k := by
  unfold packedCarrier
  rw [csRead_foldl_pixelWrite _ List.nodup_range]
  simp [List.mem_range, carrierByte]

end Sys2Proof.Machine
end

