-- ==== Sys2Proof/Laws/PerInstr.lean ====
section
/-! SUPPORT. Facts stated once per command. Family `EncodedFields`: the fields of a command's word (30_encoding.md R91)
are its opcode and its operand. -/

namespace Sys2Proof.Laws.EncodedFields

/-- The word of a command has its opcode in bits 7:0 and its operand in bits 31:8. -/
def Statement (i : Instr) : Prop := opField (encode i) = opcode i ∧ immField (encode i) = operandField i

/-- The two fields of any word put together as R91 says. -/
theorem fields_of_append (imm : BitVec 24) (op : BitVec 8) :
    opField (imm ++ op) = op ∧ immField (imm ++ op) = imm := by
  constructor
  · ext j hj
    have h : (imm ++ op).getLsbD j = _ := BitVec.getLsbD_append
    simpa [opField, hj] using h
  · ext j hj
    have h : (imm ++ op).getLsbD (8 + j) = _ := BitVec.getLsbD_append
    simpa [immField, BitVec.getLsbD_eq_getElem hj] using h

theorem nop : Statement .nop := fields_of_append _ _
theorem hide : Statement .hide := fields_of_append _ _
theorem showCmd : Statement .showCmd := fields_of_append _ _
theorem chkcap : Statement .chkcap := fields_of_append _ _
theorem maskat (index : Nat) : Statement (.maskat index) := fields_of_append _ _
theorem frame : Statement .frame := fields_of_append _ _
theorem unframe : Statement .unframe := fields_of_append _ _

end Sys2Proof.Laws.EncodedFields
end

