-- ==== Sys2Proof/Laws/Step.lean ====
section
/-! SUPPORT. What a step can do, said once: which turn it takes (`step_turn`, `step_sequencer`) and what completion does
(`complete_busy`). -/

namespace Sys2Proof.Machine

theorem step_turn {s : State} {t : Turn} {rest : List Turn} (h : s.schedule = t :: rest) :
    step s = takeTurn t { s with schedule := rest } := by
  simp [step, nextTurn, h]

theorem step_sequencer {s : State} {rest : List Turn} (h : sequencerNext s rest) :
    step s = complete { s with schedule := rest } := by
  rcases h with h | ⟨h, rfl⟩
  · simp [step, nextTurn, h, takeTurn]
  · have hs : { s with schedule := [] } = s := by rw [← h]
    rw [hs, step, nextTurn, h]

/-- Everything completion can do while BUSY: the decoded command's end, or ILLEGAL_CMD. -/
theorem complete_busy {s : State} {w : Word} {held : Operands} (h : s.seq = .busy w held) :
    (∃ i, decode w = .ok i ∧ complete s = .next (ended i s)) ∨
      ((∃ e, decode w = .error e) ∧ complete s = .next (raiseError .illegalCmd s)) := by
  cases hd : decode w with
  | ok i => exact .inl ⟨i, rfl, by simp [complete, h, hd, exec_eq]⟩
  | error e => exact .inr ⟨⟨e, rfl⟩, by simp [complete, h, hd]⟩

theorem complete_idle {s : State} (h : s.seq = .idle) : complete s = .next s := by
  simp [complete, h]

/-- Everything a step that answers a next state can have done: completion, or one of the five other turns. -/
theorem step_cases {s t : State} (h : step s = .next t) :
    (∃ rest, sequencerNext s rest ∧ complete { s with schedule := rest } = .next t) ∨
    (∃ a rest, s.schedule = .hostRead a :: rest ∧ t = hostRead a { s with schedule := rest }) ∨
    (∃ a v rest, s.schedule = .hostWrite a v :: rest ∧ t = hostWrite a v { s with schedule := rest }) ∨
    (∃ k v rest, s.schedule = .carrierLoad k v :: rest ∧ busy s = false ∧ k < s.params.carMax ∧
      t = { s with schedule := rest, carrier := csWrite s.carrier k v }) ∨
    (∃ k rest, s.schedule = .carrierSave k :: rest ∧ busy s = false ∧ k < s.params.carMax ∧
      t = { s with schedule := rest, saved := s.saved ++ [carrierByte s k] }) ∨
    (∃ written rest, s.schedule = .reset written :: rest ∧ t = resetBlock written { s with schedule := rest }) := by
  cases hs : s.schedule with
  | nil => exact .inl ⟨[], .inr ⟨hs, rfl⟩, by rw [← step_sequencer (.inr ⟨hs, rfl⟩), h]⟩
  | cons turn rest =>
    rw [step_turn hs] at h
    have hb : busy { s with schedule := rest } = busy s := rfl
    cases turn with
    | sequencer => exact .inl ⟨rest, .inl hs, h⟩
    | hostRead a => exact .inr (.inl ⟨a, rest, rfl, by injection h with h; exact h.symm⟩)
    | hostWrite a v => exact .inr (.inr (.inl ⟨a, v, rest, rfl, by injection h with h; exact h.symm⟩))
    | reset ws => exact .inr (.inr (.inr (.inr (.inr ⟨ws, rest, rfl, by injection h with h; exact h.symm⟩))))
    | carrierLoad k v =>
      simp only [takeTurn, carrierLoad, hb] at h
      split at h
      · cases h
      · rename_i hbusy
        split at h
        · injection h with h
          exact .inr (.inr (.inr (.inl ⟨k, v, rest, rfl, by simpa using hbusy, ‹_›, h.symm⟩)))
        · cases h
    | carrierSave k =>
      simp only [takeTurn, carrierSave, hb] at h
      split at h
      · cases h
      · rename_i hbusy
        split at h
        · injection h with h
          exact .inr (.inr (.inr (.inr (.inl ⟨k, rest, rfl, by simpa using hbusy, ‹_›, h.symm⟩))))
        · cases h

/-- A run of one step more, of any machine. -/
theorem run_succ_of_next (M : Host.Core) {s t : M.State} (k : Nat) (h : M.step s = .next t) :
    M.run (k + 1) s = M.run k t := by
  simp only [Host.Core.run, h]

/-- A run of one step more. -/
theorem run_succ {s t : State} (k : Nat) (h : step s = .next t) :
    Host.Core.run core (k + 1) s = Host.Core.run core k t :=
  run_succ_of_next core k h

@[simp] theorem run_zero (s : State) : Host.Core.run core 0 s = .next s := rfl

section Ended
variable (i : Instr) (s : State)

@[simp] theorem ended_seq : (ended i s).seq = .idle := by
  rcases ended_cases i s with ⟨e, _, h⟩ | ⟨_, h⟩ <;> simp [h]
@[simp] theorem busy_ended : busy (ended i s) = false := by simp [busy]
@[simp] theorem ended_done : (ended i s).status.done = true := by
  rcases ended_cases i s with ⟨e, _, h⟩ | ⟨_, h⟩ <;> simp [h]
@[simp] theorem ended_bwerr : (ended i s).status.bwerr = s.status.bwerr := by
  rcases ended_cases i s with ⟨e, _, h⟩ | ⟨_, h⟩ <;> simp [h]
@[simp] theorem ended_params : (ended i s).params = s.params := by
  rcases ended_cases i s with ⟨e, _, h⟩ | ⟨_, h⟩ <;> simp [h]
@[simp] theorem ended_ctrl : (ended i s).ctrl = s.ctrl := by
  rcases ended_cases i s with ⟨e, _, h⟩ | ⟨_, h⟩ <;> simp [h]
@[simp] theorem ended_pwd : (ended i s).pwd = s.pwd := by
  rcases ended_cases i s with ⟨e, _, h⟩ | ⟨_, h⟩ <;> simp [h]
@[simp] theorem ended_msg : (ended i s).msg = s.msg := by
  rcases ended_cases i s with ⟨e, _, h⟩ | ⟨_, h⟩ <;> simp [h]
@[simp] theorem ended_schedule : (ended i s).schedule = s.schedule := by
  rcases ended_cases i s with ⟨e, _, h⟩ | ⟨_, h⟩ <;> simp [h]
@[simp] theorem ended_reads : (ended i s).reads = s.reads := by
  rcases ended_cases i s with ⟨e, _, h⟩ | ⟨_, h⟩ <;> simp [h]
@[simp] theorem ended_draws : (ended i s).draws = s.draws := by
  rcases ended_cases i s with ⟨e, _, h⟩ | ⟨_, h⟩ <;> simp [h]

end Ended

end Sys2Proof.Machine
end

