-- ==== Sys2Proof/Tests/Slice0.lean ====
section
/-! SUPPORT. Tests: each is one decode, one command or one turn on a small state, with the expected value from the table
of spec/95_test_vectors.md that its comment names. Then the witnesses: for every statement that has hypotheses, a state
and operands that meet them together. -/

namespace Sys2Proof.Machine.Tests

/-! ### Small states -/

/-- A small legal machine. -/
def small : Params := { pwdMax := 4, msgMax := 8, carMax := 64, outMax := 16 }

/-- Bytes from entry 0 on. -/
def bytes (bs : List Byte) : Memory := (List.range bs.length).zip bs

/-- After reset, with a password, a message and a carrier of `w * h` pixels set up by the host. -/
def setUp (pwd msg : List Byte) (w h : Word) (cs : List Byte) : State :=
  { State.resetWith small with
    pwd := bytes pwd
    pwdLen := BitVec.ofNat 32 pwd.length
    msg := bytes msg
    msgLen := BitVec.ofNat 32 msg.length
    width := w
    height := h
    carrier := bytes cs }

/-- The carrier that program P1 starts with. -/
def startCarrier : List Byte := (List.range 40).map (fun k => BitVec.ofNat 8 (37 * k + 11))

/-- Program P1 just before `cmd HIDE`: "Hi", password "k", 8 x 5 pixels. -/
def hidingHi : State := setUp [0x6B#8] [0x48#8, 0x69#8] 8#32 5#32 startCarrier

/-- A carrier all of whose low bits are 0, or all 1. -/
def plainCarrier (b : Byte) : List Byte := List.replicate 48 b

/-- The next state of an outcome that has one. -/
def next? (o : Host.Outcome State Fault Refusal) : Option State :=
  match o with
  | .next s => some s
  | .fault _ => none
  | .refused _ => none

/-- The fault of an outcome that is one. -/
def fault? (o : Host.Outcome State Fault Refusal) : Option Fault :=
  match o with
  | .next _ => none
  | .fault f => some f
  | .refused _ => none

/-- What `f` sees after a command. -/
def seen {α : Type} (i : Instr) (s : State) (f : State → α) : Option α := (next? (exec i s)).map f

/-- What `f` sees after one turn. -/
def seenAfter {α : Type} (t : Turn) (s : State) (f : State → α) : Option α :=
  (next? (step { s with schedule := [t] })).map f

/-- The first `n` bytes of OUT. -/
def outBytes (n : Nat) (s : State) : List Byte := (List.range n).map (outByte s)

/-- Bit 0 of the first `n` pixels. -/
def lowBits (n : Nat) (s : State) : List Bool := (List.range n).map (carrierBit s)

/-! ### Syntax and decoding -/

/-- 30_encoding.md R92: "A larger index cannot be spelled". -/
theorem test_wellFormed_refuses_wide_index : Instr.wellFormed (.maskat 0x1000000) = false := by decide
theorem test_wellFormed_takes_largest_index : Instr.wellFormed (.maskat 0xFFFFFF) = true := by decide

/-- 30_encoding.md R93, the words bit by bit: IMM24 above OP. -/
theorem test_decode_nop : decode 0b00000000000000000000000000000000#32 = .ok .nop := by decide
theorem test_decode_hide : decode 0b00000000000000000000000000000001#32 = .ok .hide := by decide
theorem test_decode_show : decode 0b00000000000000000000000000000010#32 = .ok .showCmd := by decide
theorem test_decode_chkcap : decode 0b00000000000000000000000000000011#32 = .ok .chkcap := by decide
theorem test_decode_frame : decode 0b00000000000000000000000000000101#32 = .ok .frame := by decide
theorem test_decode_unframe : decode 0b00000000000000000000000000000110#32 = .ok .unframe := by decide
/-- 41_cipher.md R134's example, and index 0x800001, whose ends show the field's place. -/
theorem test_decode_maskat : decode 0b00000000000000000000010000000100#32 = .ok (.maskat 4) := by decide
theorem test_decode_maskat_ends : decode 0b10000000000000000000000100000100#32 = .ok (.maskat 0x800001) := by decide
/-- L3, L4 (reserved opcodes, the first and the last), L5, L6 (IMM24 not 0). -/
theorem test_decode_reserved_first : decode 0x00000007#32 = .error (.reservedOpcode 0x07#8) := by decide
theorem test_decode_reserved_last : decode 0x000000FF#32 = .error (.reservedOpcode 0xFF#8) := by decide
theorem test_decode_nop_operand : decode 0x00000100#32 = .error (.operandNotZero 0x00#8 1#24) := by decide
theorem test_decode_show_operand : decode 0x80000002#32 = .error (.operandNotZero 0x02#8 0x800000#24) := by decide
theorem test_decodeTableWord : decodeTableWord 32 0x00000304 = some (.maskat 3) := by decide
theorem test_encode_maskat : encode (.maskat 0xFFFFFF) = 0xFFFFFF04#32 := by decide

/-! ### The commands -/

/-- L1, and NOP leaving BWERR alone (40_command.md R117). -/
theorem test_nop_status :
    seen .nop (accept 0x00000000#32 (State.resetWith small)) statusWord = some 0x02#32 := by decide
theorem test_nop_keeps_bwerr :
    seen .nop (accept 0#32 { hidingHi with status := { hidingHi.status with bwerr := true } }) statusWord =
      some 0x22#32 := by decide

/-- M4 (the index wraps). -/
theorem test_maskat_wraps :
    seen (.maskat 3) (setUp [0x61#8, 0x62#8, 0x63#8] [] 0#32 0#32 []) (·.result) = some 0x61#32 := by decide
/-- M6 (the largest index, password "abcd", which fills this machine's buffer). -/
theorem test_maskat_largest_index :
    seen (.maskat 0xFFFFFF) (setUp [0x61#8, 0x62#8, 0x63#8, 0x64#8] [] 0#32 0#32 []) (·.result) =
      some 0x64#32 := by decide

/-- F1. -/
theorem test_frame_hi :
    seen .frame hidingHi (fun t => (t.outLen, outBytes 5 t)) =
      some (5#32, [0x23#8, 0x02#8, 0x00#8, 0x00#8, 0x03#8]) := by decide
/-- F5 (a password shorter than the message). -/
theorem test_frame_hello :
    seen .frame (setUp [0x61#8, 0x62#8, 0x63#8] [0x68#8, 0x65#8, 0x6C#8, 0x6C#8, 0x6F#8] 0#32 0#32 [])
      (fun t => (t.outLen, outBytes 8 t)) =
      some (8#32, [0x09#8, 0x07#8, 0x0F#8, 0x0D#8, 0x0D#8, 0x00#8, 0x00#8, 0x03#8]) := by decide

/-- F7. -/
theorem test_unframe_hi :
    seen .unframe (setUp [0x6B#8] [0x23#8, 0x02#8] 0#32 0#32 []) (fun t => (t.outLen, outBytes 2 t)) =
      some (2#32, [0x48#8, 0x69#8]) := by decide
/-- F9 (no terminator handling). -/
theorem test_unframe_keeps_terminator :
    seen .unframe (setUp [] [0x00#8, 0x00#8, 0x03#8] 0#32 0#32 []) (fun t => (t.outLen, outBytes 3 t)) =
      some (3#32, [0x00#8, 0x00#8, 0x03#8]) := by decide

/-- K1 (exact fit). -/
theorem test_chkcap_exact_fit : seen .chkcap hidingHi statusWord = some 0x12#32 := by decide
/-- K2 (13 x 3 pixels, one bit short). -/
theorem test_chkcap_one_bit_short :
    seen .chkcap { hidingHi with width := 13#32, height := 3#32 } statusWord = some 0x106#32 := by decide

/-- H1 (program P1). -/
theorem test_hide_hi :
    seen .hide hidingHi (fun t => (t.cursor, statusWord t, t.carrier)) =
      some (40#32, 0x12#32, bytes
        ([0x0A#8, 0x30#8, 0x55#8, 0x7A#8, 0x9E#8, 0xC4#8, 0xE9#8, 0x0F#8, 0x32#8, 0x58#8,
          0x7C#8, 0xA2#8, 0xC6#8, 0xEC#8, 0x11#8, 0x36#8, 0x5A#8, 0x80#8, 0xA4#8, 0xCA#8] ++
         [0xEE#8, 0x14#8, 0x38#8, 0x5E#8, 0x82#8, 0xA8#8, 0xCC#8, 0xF2#8, 0x16#8, 0x3C#8,
          0x60#8, 0x86#8, 0xAA#8, 0xD0#8, 0xF4#8, 0x1A#8, 0x3E#8, 0x64#8, 0x89#8, 0xAF#8])) := by decide
/-- H2 (LSB_FIRST): the bit 0s. -/
theorem test_hide_hi_lsb_first :
    seen .hide { hidingHi with ctrl := { hidingHi.ctrl with bitOrder := .lsbFirst } } (lowBits 40) =
      some
        ([true, true, false, false, false, true, false, false] ++ [false, true] ++ List.replicate 22 false ++
          [true, true] ++ List.replicate 6 false) := by decide

/-- U1 (program P2), from the message alone: a SHOW of what HIDE wrote. -/
theorem test_show_hi :
    (seen .hide hidingHi id).bind (fun t => seen .showCmd { t with seq := .idle, status := (State.resetWith small).status }
      (fun u => (u.outLen, outBytes 2 u, u.cursor, statusWord u))) =
      some (2#32, [0x48#8, 0x69#8], 40#32, 0x0A#32) := by decide +kernel
/-- U5 (20 pixels, all bit 0s 1, no terminator, 4 bits dropped). -/
theorem test_show_without_terminator :
    seen .showCmd (setUp [0x6B#8] [] 20#32 1#32 (plainCarrier 0x01#8))
      (fun u => (u.outLen, outBytes 2 u, u.cursor, statusWord u)) =
      some (2#32, [0x94#8, 0x94#8], 20#32, 0x02#32) := by decide

/-! ### The turns -/

/-- V3, V5, V7. -/
theorem test_ctrl_reserved_bits :
    seenAfter (.hostWrite 0x004#22 0xFFFFFFFF#32) (State.resetWith small) (fun t => readValue t 0x004#22) =
      some 0x00000007#32 := by decide
theorem test_window_takes_low_byte :
    seenAfter (.hostWrite 0x010000#22 0x1234#32) (State.resetWith small) (fun t => readValue t 0x010000#22) =
      some 0x00000034#32 := by decide
theorem test_unmapped_reads_zero :
    seenAfter (.hostRead 0x000100#22) hidingHi (·.reads) = some [0#32] := by decide
/-- V9, V10, V11. -/
theorem test_status_clears_done :
    seenAfter (.hostWrite 0x00C#22 0x00000002#32)
      { hidingHi with status := { hidingHi.status with done := true, bwerr := true } } statusWord =
      some 0x20#32 := by decide
theorem test_status_keeps_term :
    seenAfter (.hostWrite 0x00C#22 0xFFFFFFFF#32)
      { hidingHi with status := { hidingHi.status with done := true, term := true } } statusWord =
      some 0x08#32 := by decide
/-- L3. -/
theorem test_illegal_word_status :
    seenAfter .sequencer (accept 0x00000007#32 (State.resetWith small)) statusWord = some 0x306#32 := by decide
/-- L13, while BUSY: the write is ignored and BWERR is set. -/
theorem test_write_while_busy :
    seenAfter (.hostWrite 0x01C#22 0#32) (accept 0x00000001#32 hidingHi) (fun t => (t.msgLen, statusWord t)) =
      some (2#32, 0x21#32) := by decide
/-- L2: the interrupt after a NOP with IRQ_EN = 1. -/
theorem test_interrupt_after_nop :
    seenAfter .sequencer (accept 0#32 { hidingHi with ctrl := { hidingHi.ctrl with irqEn := true } }) irq =
      some true := by decide
/-- Z2: a reset during P1's HIDE that had written pixels 0 and 4 alone: their P1 end values, the rest P1's start. -/
theorem test_reset_during_hide :
    seenAfter (.reset [0, 4]) (accept 0x00000001#32 hidingHi)
      (fun t => ((List.range 6).map (carrierByte t), statusWord t)) =
      some ([0x0A#8, 0x30#8, 0x55#8, 0x7A#8, 0x9E#8, 0xC4#8], 0#32) := by decide
/-- 20_memory.md R82. -/
theorem test_carrier_conflict :
    fault? (step { accept 0#32 hidingHi with schedule := [.carrierSave 0] }) = some .hostCarrierConflict := by decide

/-- A placed command is the very next step's: MASKAT 0 after reset leaves RESULT 0 (41_cipher.md R131). -/
theorem test_withFetchWord :
    (next? (step (State.reset.withFetchWord 32 0x00000004))).map (fun t => (t.result, statusWord t)) =
      some (0#32, 0x02#32) := by decide

/-! ### Witnesses -/

/-- P1 just after `cmd HIDE` is accepted. -/
def busyHiding : State := accept 0x00000001#32 hidingHi

/-- A state with turns to come. -/
def withTurns (s : State) (ts : List Turn) : State := { s with schedule := ts }

theorem small_legal : small.legal := by decide
theorem params_legal : Config.params.legal := by decide
/-- The smallest parameters the spec allows. -/
theorem smallest_legal : Params.legal { pwdMax := 1, msgMax := 0, carMax := 24, outMax := 3 } := by decide

/-- The invariant holds of a state that is not reset: P1's start. -/
theorem hidingHi_inv : Inv hidingHi where
  params_legal := by decide
  pwd_wf := by decide
  msg_wf := by decide
  out_wf := by decide
  carrier_wf := by decide
  pwd_below := by decide
  msg_below := by decide
  out_below := by decide
  carrier_below := by decide
  held_eq := by intro w held h; cases h
  busy_clear := by decide
  err_iff := by decide
  errcode_mem := by decide
  result_lt := by decide
  outLen_le := by decide
  cursor_le := by decide

/-- And of a busy one. -/
theorem busyHiding_inv : Inv busyHiding where
  params_legal := by decide
  pwd_wf := by decide
  msg_wf := by decide
  out_wf := by decide
  carrier_wf := by decide
  pwd_below := by decide
  msg_below := by decide
  out_below := by decide
  carrier_below := by decide
  held_eq := by intro w held h; cases h; rfl
  busy_clear := by decide
  err_iff := by decide
  errcode_mem := by decide
  result_lt := by decide
  outLen_le := by decide
  cursor_le := by decide

theorem witness_DecodeOfEncodeIsTheCommand :
    Instr.wellFormed (.maskat 0xFFFFFF) = true ∧ Instr.wellFormed (.maskat 0) = true ∧ Instr.wellFormed .unframe = true := by
  decide

theorem witness_DecodedWordIsItsCommandsWord : decode 0xFFFFFF04#32 = .ok (.maskat 0xFFFFFF) := by decide

/-- One word per clause, and no clause takes a word of another: 4 and 0x104 are MASKAT's, 7 the first illegal. -/
theorem witness_EveryWordIsACommandOrIllegal :
    (0xFFFFFF04#32).toNat % 256 = 4 ∧ (0#32).toNat = 0 ∧ (1#32).toNat = 1 ∧ (2#32).toNat = 2 ∧ (3#32).toNat = 3 ∧
      (5#32).toNat = 5 ∧ (6#32).toNat = 6 ∧ ((7#32).toNat % 256 ≠ 4 ∧ 6 < (7#32).toNat) ∧
      ((0x100#32).toNat % 256 ≠ 4 ∧ 6 < (0x100#32).toNat) := by decide

theorem witness_StepRunsTheDecodedCommand :
    busyHiding.seq = .busy 0x00000001#32 (operandRegisters hidingHi) ∧ decode 0x00000001#32 = .ok .hide ∧
      sequencerNext busyHiding [] ∧
      sequencerNext (withTurns busyHiding [.sequencer, .hostRead 0x00C#22]) [.hostRead 0x00C#22] := by
  decide

theorem witness_IllegalWordCompletesWithCodeThree :
    (accept 0x00000100#32 hidingHi).seq = .busy 0x00000100#32 (operandRegisters hidingHi) ∧
      decode 0x00000100#32 = .error (.operandNotZero 0x00#8 1#24) ∧ sequencerNext (accept 0x00000100#32 hidingHi) [] := by
  decide

theorem witness_CommandWriteWhileIdleAccepts :
    busy hidingHi = false ∧
      (withTurns hidingHi [.hostWrite 0x008#22 0x1#32]).schedule = .hostWrite 0x008#22 0x1#32 :: [] := by
  decide

/-- The words beside STATUS, and the ends of the port. -/
theorem witness_HostWriteWhileBusyOnlySetsBwerr :
    busy busyHiding = true ∧
      [0x000#22, 0x008#22, 0x010#22, 0x3FFFFC#22].all (fun a => a.toNat / 4 != 3 &&
        decide ((withTurns busyHiding [.hostWrite a 5#32]).schedule = .hostWrite a 5#32 :: [])) = true := by
  decide

theorem witness_StatusWriteClearsOnlyDoneAndBwerr :
    (withTurns busyHiding [.hostWrite 0x00C#22 0x22#32]).schedule = .hostWrite 0x00C#22 0x22#32 :: [] := by decide

theorem witness_CompletionAlwaysEndsTheCommand : busy busyHiding = true ∧ sequencerNext busyHiding [] := by decide

/-- CHKCAP after reset, `W * H = 0`, and a word that does not decode. -/
theorem witness_FailedCommandChangesOnlyStatus :
    let s := accept 0x00000003#32 (State.resetWith small)
    let z := accept 0x00000007#32 (State.resetWith small)
    (busy s = true ∧ sequencerNext s [] ∧ s.status.err = false ∧ busy z = true ∧ sequencerNext z [] ∧
      z.status.err = false) ∧
      (∃ t, step s = .next t ∧ t.status.err = true) ∧ ∃ t, step z = .next t ∧ t.status.err = true :=
  ⟨by decide, ⟨_, rfl, rfl⟩, _, rfl, rfl⟩

/-- At each bound the check holds; one above it, it does not. -/
theorem witness_OperandRangeChecksAsTheTableSays :
    valid .hide { hidingHi with pwdLen := 4#32, msgLen := 8#32, width := 64#32, height := 1#32 } = true ∧
      hidingHi.status.errcode = 0#4 ∧
      valid .hide { hidingHi with pwdLen := 5#32 } = false ∧ valid .hide { hidingHi with msgLen := 9#32 } = false ∧
      valid .hide { hidingHi with width := 65#32, height := 1#32 } = false := by
  decide

/-- `8 * (Lm + 3) - 1` pixels. -/
theorem witness_CapacityErrorWhenPayloadTooLong :
    let s := { hidingHi with width := 13#32, height := 3#32 }
    valid .hide s = true ∧ valid .chkcap s = true ∧
      (operands s).width.toNat * (operands s).height.toNat + 1 = 8 * ((operands s).msgLen.toNat + 3) := by
  decide

/-- Every command answers a next state, so every clause has its cases. -/
theorem witness_EachCommandWritesOnlyItsOutputs :
    ∀ i : Instr, ∃ t, exec i busyHiding = .next t := fun i => ⟨_, exec_eq i busyHiding⟩

theorem witness_HostAccessesWhileBusyDoNotChangeTheOutcome :
    busy busyHiding = true ∧
      ∀ t ∈ (withTurns busyHiding [.hostRead 0x020#22, .hostWrite 0x008#22 0#32, .hostWrite 0x00C#22 0x20#32]).schedule,
        t.isPortAccess = true := by
  decide

theorem witness_CommandThenWaitRunsTheCommand :
    busy hidingHi = false ∧ Instr.hide.wellFormed = true ∧
      (withTurns hidingHi (programTurns [.cmd .hide, .wait 2])).schedule = programTurns [.cmd .hide, .wait 2] := by
  decide

/-- A password of `PWD_MAX` bytes, and one of none. -/
theorem witness_MaskatReturnsTheMaskByte :
    (operands { hidingHi with pwdLen := 4#32 }).pwdLen.toNat = hidingHi.params.pwdMax ∧
      (operands (State.resetWith small)).pwdLen.toNat ≤ (State.resetWith small).params.pwdMax := by
  decide

/-- Two states that differ in the message and the carrier. -/
theorem witness_MaskDependsOnlyOnThePassword :
    let s := hidingHi
    let s' := setUp [0x6B#8] [] 0#32 0#32 []
    (operands s).ctrl.cipherEn = (operands s').ctrl.cipherEn ∧ (operands s).pwdLen = (operands s').pwdLen ∧
      ∀ i, i < (operands s).pwdLen.toNat → pwdByte s i = pwdByte s' i := by
  refine ⟨by decide, by decide, ?_⟩
  intro i h
  have h0 : i = 0 := by
    have : (operands hidingHi).pwdLen.toNat = 1 := by decide
    omega
  subst h0
  decide

/-- Both lengths at their maximum, and both 0. -/
theorem witness_FrameWritesMaskedMessageAndTerminator :
    let s := { hidingHi with pwdLen := 4#32, msgLen := 8#32 }
    (passwordLength s = s.params.pwdMax ∧ messageLength s = s.params.msgMax ∧ pwdLenOk s ∧ msgLenOk s) ∧
      pwdLenOk (State.resetWith small) ∧ msgLenOk (State.resetWith small) := by
  decide

theorem witness_UnframeWritesUnmaskedMessage :
    let s := { hidingHi with pwdLen := 4#32, msgLen := 8#32 }
    (passwordLength s = s.params.pwdMax ∧ messageLength s = s.params.msgMax ∧ pwdLenOk s ∧ msgLenOk s) ∧
      pwdLenOk (State.resetWith small) ∧ msgLenOk (State.resetWith small) := by
  decide

/-- F1 and then F7, PWD holding another byte past the password. -/
theorem witness_UnframeAfterFrameGivesTheMessage :
    let s := hidingHi
    let s' := { setUp [0x6B#8, 0x55#8] [0x23#8, 0x02#8] 0#32 0#32 [] with pwdLen := 1#32 }
    pwdLenOk s ∧ msgLenOk s ∧
      ∃ t, exec .frame s = .next t ∧ s'.params = s.params ∧ (operands s').pwdLen = (operands s).pwdLen ∧
        (operands s').msgLen = (operands s).msgLen ∧ (operands s').ctrl.cipherEn = (operands s).ctrl.cipherEn ∧
        (∀ i, i < (operands s).pwdLen.toNat → pwdByte s' i = pwdByte s i) ∧
        ∀ i, i < (operands s).msgLen.toNat → msgByte s' i = outByte t i := by
  refine ⟨by decide, by decide, _, exec_eq _ _, rfl, rfl, rfl, rfl, ?_, ?_⟩
  · intro i h
    have h0 : i = 0 := by
      have : (operands hidingHi).pwdLen.toNat = 1 := by decide
      omega
    subst h0
    decide
  intro i h
  have h2 : i = 0 ∨ i = 1 := by
    have : (operands hidingHi).msgLen.toNat = 2 := by decide
    omega
  rcases h2 with rfl | rfl <;> decide

/-- The payload fits exactly; and one bit less. -/
theorem witness_ChkcapPassesExactlyWhenPayloadFits :
    let s := { hidingHi with width := 13#32, height := 3#32 }
    (msgLenOk hidingHi ∧ carrierOk hidingHi ∧
      8 * ((operands hidingHi).msgLen.toNat + 3) =
        (operands hidingHi).width.toNat * (operands hidingHi).height.toNat) ∧
    (msgLenOk s ∧ carrierOk s ∧
      8 * ((operands s).msgLen.toNat + 3) = (operands s).width.toNat * (operands s).height.toNat + 1) := by
  decide

/-- An exact fit, and a largest carrier in either bit order. -/
theorem witness_HideWritesTheStreamIntoTheLowBits :
    (pwdLenOk hidingHi ∧ msgLenOk hidingHi ∧ carrierOk hidingHi ∧
      8 * ((operands hidingHi).msgLen.toNat + 3) = (operands hidingHi).width.toNat * (operands hidingHi).height.toNat) ∧
    ∀ o ∈ [BitOrder.msbFirst, BitOrder.lsbFirst],
      let s := { hidingHi with width := 64#32, height := 1#32, ctrl := { hidingHi.ctrl with bitOrder := o } }
      (operands s).ctrl.bitOrder = o ∧ pwdLenOk s ∧ msgLenOk s ∧ carrierOk s ∧
        8 * ((operands s).msgLen.toNat + 3) ≤ (operands s).width.toNat * (operands s).height.toNat := by
  decide

theorem witness_HideKeepsUpperBitsAndLaterPixels : ∃ t, exec .hide hidingHi = .next t := ⟨_, exec_eq _ _⟩

theorem witness_HideNeverExhaustsTheCarrier :
    busyHiding.status.errcode ≠ 2#4 ∧ (next? (step busyHiding)).isSome = true := by decide

/-- The empty message hidden in 24 pixels, the shortest scan that finds the terminator (S9), in both bit orders. -/
theorem witness_ShowStopsAtTheFirstTerminator :
    let ones := List.replicate 22 0xFE#8
    let s := setUp [0x6B#8] [] 24#32 1#32 (ones ++ [0xFF#8, 0xFF#8])
    let l :=
      { setUp [0x6B#8] [] 24#32 1#32 (List.replicate 16 0xFE#8 ++ [0xFF#8, 0xFF#8] ++ List.replicate 6 0xFE#8) with
        ctrl := { cipherEn := true, bitOrder := .lsbFirst, irqEn := false } }
    (pwdLenOk s ∧ carrierOk s ∧ 8 * (2 + 1) = (operands s).width.toNat * (operands s).height.toNat ∧
      terminatorEndsAt s 2) ∧
    (pwdLenOk l ∧ carrierOk l ∧ 8 * (2 + 1) = (operands l).width.toNat * (operands l).height.toNat ∧
      terminatorEndsAt l 2) ∧
    (∀ m', m' < 2 → ¬ terminatorEndsAt s m') ∧ (∀ m', m' < 2 → ¬ terminatorEndsAt l m') := by
  refine ⟨by decide, by decide, ?_, ?_⟩ <;> intro m' h <;> exact fun ht => absurd ht.1 (by omega)

/-- 24 pixels, all low bits 0: three completed bytes `00 00 00`; and no pixel at all. -/
theorem witness_ShowWithoutTerminatorReturnsEveryByte :
    let s := setUp [0x6B#8] [] 24#32 1#32 (plainCarrier 0x80#8)
    let z := State.resetWith small
    (pwdLenOk s ∧ carrierOk s ∧ pwdLenOk z ∧ carrierOk z) ∧
    (∀ m, 8 * (m + 1) ≤ (operands s).width.toNat * (operands s).height.toNat → ¬ terminatorEndsAt s m) ∧
    (∀ m, 8 * (m + 1) ≤ (operands z).width.toNat * (operands z).height.toNat → ¬ terminatorEndsAt z m) := by
  refine ⟨by decide, ?_, ?_⟩
  · intro m h ht
    have h24 : (operands (setUp [0x6B#8] [] 24#32 1#32 (plainCarrier 0x80#8))).width.toNat *
      (operands (setUp [0x6B#8] [] 24#32 1#32 (plainCarrier 0x80#8))).height.toNat = 24 := by decide
    have h2 := ht.1
    have hm : m = 2 := by omega
    subst hm
    exact absurd ht.2.2.2 (by decide)
  · intro m h
    have h0 : (operands (State.resetWith small)).width.toNat * (operands (State.resetWith small)).height.toNat = 0 := by
      decide
    omega

/-- A SHOW that ends well, and one that fails. -/
theorem witness_ShowWritesOutOnlyBelowOutLen :
    small.legal ∧ hidingHi.status.err = false ∧
      (∃ t, exec .showCmd hidingHi = .next t ∧ t.status.err = false) ∧
      ∃ t, exec .showCmd { hidingHi with pwdLen := 5#32 } = .next t ∧ t.status.err = true :=
  ⟨by decide, rfl, ⟨_, exec_eq _ _, by decide⟩, _, exec_eq _ _, by decide⟩

/-- P1's carrier read with "k" and with the empty password, cipher off. -/
theorem witness_WrongPasswordStillFindsTheTerminator :
    let s := hidingHi
    let s' := { hidingHi with pwdLen := 0#32, ctrl := { hidingHi.ctrl with cipherEn := false } }
    pwdLenOk s ∧ pwdLenOk s' ∧ carrierOk s ∧ s'.params = s.params ∧ (operands s').width = (operands s).width ∧
      (operands s').height = (operands s).height ∧ (operands s').ctrl.bitOrder = (operands s).ctrl.bitOrder ∧
      s'.carrier = s.carrier ∧ s'.status = s.status := by
  decide

/-- 8 x 5 and 40 x 1: the second state is the one the host reaches by writing the other size before `cmd HIDE`. -/
theorem witness_OnlyTheProductOfWidthAndHeightMatters :
    busyHiding.seq = .busy 0x00000001#32 (operandRegisters hidingHi) ∧
      (40#32).toNat * (1#32).toNat =
        (operandRegisters hidingHi).width.toNat * (operandRegisters hidingHi).height.toNat ∧
      (∃ t, exec .hide busyHiding = .next t) ∧
      { busyHiding with
        width := 40#32
        height := 1#32
        seq := .busy 0x00000001#32 { operandRegisters hidingHi with width := 40#32, height := 1#32 } } =
        accept 0x00000001#32 { hidingHi with width := 40#32, height := 1#32 } :=
  ⟨rfl, by decide, ⟨_, exec_eq _ _⟩, rfl⟩

/-- The saved and reloaded carrier reads as HIDE left it. -/
theorem carrierByte_reloaded (s : State) (w h : Word) (k : Nat) :
    carrierByte { s with carrier := (ended .hide s).carrier, width := w, height := h } k =
      carrierByte (ended .hide s) k := rfl

/-- S8: "hello" with "abc" in 64 pixels, shown from the carrier HIDE left, seen as 64 x 1. -/
theorem witness_ShowAfterHideGivesTheMessage :
    let s := setUp [0x61#8, 0x62#8, 0x63#8] [0x68#8, 0x65#8, 0x6C#8, 0x6C#8, 0x6F#8] 8#32 8#32 (plainCarrier 0x80#8)
    let s' := { s with carrier := (ended .hide s).carrier, width := 64#32, height := 1#32 }
    (pwdLenOk s ∧ msgLenOk s ∧ carrierOk s ∧ capacityOk s) ∧ exec .hide s = .next (ended .hide s) ∧
      (pwdLenOk s' ∧ carrierOk s' ∧
        8 * ((operands s).msgLen.toNat + 3) ≤ (operands s').width.toNat * (operands s').height.toNat ∧
        (operands s').ctrl.bitOrder = (operands s).ctrl.bitOrder ∧
        (operands s').ctrl.cipherEn = (operands s).ctrl.cipherEn ∧ (operands s').pwdLen = (operands s).pwdLen) ∧
      (∀ i, i < (operands s).pwdLen.toNat → pwdByte s' i = pwdByte s i) ∧
      (∀ k, k < 8 * ((operands s).msgLen.toNat + 3) → carrierByte s' k = carrierByte (ended .hide s) k) ∧
      ∀ p, p + 2 < (operands s).msgLen.toNat → ¬ framedTerminatorAt s p := by
  refine ⟨by decide +kernel, exec_eq _ _, by decide +kernel, fun _ _ => rfl, fun k _ => carrierByte_reloaded _ _ _ k, ?_⟩
  intro p h
  have h5 : p + 2 < 5 := h
  have h3 : p = 0 ∨ p = 1 ∨ p = 2 := by omega
  rcases h3 with rfl | rfl | rfl <;> decide +kernel

/-- P4: "aab" with "a" in 48 pixels: the ciphered message is the terminator, at byte 0. -/
theorem witness_ShowAfterHideStopsAtCipheredTerminator :
    let s := setUp [0x61#8] [0x61#8, 0x61#8, 0x62#8] 6#32 8#32 (plainCarrier 0x80#8)
    let s' := ended .hide s
    (pwdLenOk s ∧ msgLenOk s ∧ carrierOk s ∧ capacityOk s) ∧ exec .hide s = .next (ended .hide s) ∧
      (pwdLenOk s' ∧ carrierOk s' ∧
        8 * ((operands s).msgLen.toNat + 3) ≤ (operands s').width.toNat * (operands s').height.toNat ∧
        (operands s').ctrl.bitOrder = (operands s).ctrl.bitOrder ∧
        (operands s').ctrl.cipherEn = (operands s).ctrl.cipherEn ∧ (operands s').pwdLen = (operands s).pwdLen) ∧
      (∀ i, i < (operands s).pwdLen.toNat → pwdByte s' i = pwdByte s i) ∧
      (∀ k, k < 8 * ((operands s).msgLen.toNat + 3) → carrierByte s' k = carrierByte (ended .hide s) k) ∧
      0 + 2 < (operands s).msgLen.toNat ∧ framedTerminatorAt s 0 ∧ ∀ q, q < 0 → ¬ framedTerminatorAt s q :=
  ⟨by decide +kernel, exec_eq _ _, by decide +kernel, fun _ _ => rfl, fun _ _ => rfl, by decide +kernel, by decide +kernel,
    fun _ h => absurd h (Nat.not_lt_zero _)⟩

theorem witness_RegisterReadsAsTheMapSays : busy hidingHi = false := by decide

theorem witness_PortAccessesCompleteAndReadsChangeNothing :
    (withTurns busyHiding [.hostWrite 0x3FFFFF#22 1#32]).schedule = .hostWrite 0x3FFFFF#22 1#32 :: [] ∧
      (withTurns busyHiding [.hostRead 0x020#22]).schedule = .hostRead 0x020#22 :: [] ∧ busy hidingHi = false ∧
      (withTurns hidingHi [.hostRead 0x200000#22, .hostRead 0x200000#22]).schedule =
        .hostRead 0x200000#22 :: .hostRead 0x200000#22 :: [] := by
  decide

theorem witness_OperandRegisterWritesStore :
    busy hidingHi = false ∧
      [0x004#22, 0x010#22, 0x014#22, 0x018#22, 0x01C#22].all (fun a =>
        decide ((withTurns hidingHi [.hostWrite a 0xFFFFFFFF#32]).schedule = .hostWrite a 0xFFFFFFFF#32 :: [])) =
        true := by
  decide

/-- The last entry of each buffer. -/
theorem witness_BufferWindowsReadAndWriteOneByte :
    hidingHi.params.legal ∧ busy hidingHi = false ∧ 3 + 1 = hidingHi.params.pwdMax ∧ 7 + 1 = hidingHi.params.msgMax ∧
      15 + 1 = hidingHi.params.outMax ∧
      (withTurns hidingHi [.hostWrite (BitVec.ofNat 22 (0x200000 + 4 * 15)) 0x1FF#32]).schedule =
        .hostWrite (BitVec.ofNat 22 (0x200000 + 4 * 15)) 0x1FF#32 :: [] ∧
      (withTurns hidingHi [.hostWrite (BitVec.ofNat 22 (0x010000 + 4 * 3)) 0x1FF#32]).schedule =
        .hostWrite (BitVec.ofNat 22 (0x010000 + 4 * 3)) 0x1FF#32 :: [] ∧
      (withTurns hidingHi [.hostWrite (BitVec.ofNat 22 (0x100000 + 4 * 7)) 0x1FF#32]).schedule =
        .hostWrite (BitVec.ofNat 22 (0x100000 + 4 * 7)) 0x1FF#32 :: [] := by
  decide

/-- The first and last word of every unmapped range of the small machine. -/
theorem witness_UnmappedWordsReadZeroAndIgnoreWrites :
    small.legal ∧
      [0x02C#22, 0x040#22, 0x00FFFC#22, 0x010010#22, 0x0FFFFC#22, 0x100020#22, 0x1FFFFC#22, 0x200040#22,
        0x3FFFFC#22].all (fun addr =>
        let a := 4 * (addr.toNat / 4)
        decide (a = 0x02C ∨ (0x040 ≤ a ∧ a < 0x010000) ∨ (0x010000 + 4 * small.pwdMax ≤ a ∧ a < 0x100000) ∨
          (0x100000 + 4 * small.msgMax ≤ a ∧ a < 0x200000) ∨ 0x200000 + 4 * small.outMax ≤ a)) = true := by
  decide

theorem witness_ReadOnlyWordsIgnoreWrites :
    busy hidingHi = false ∧
      [0x000#22, 0x020#22, 0x024#22, 0x028#22, 0x030#22, 0x03C#22, 0x200000#22, 0x3FFFFC#22].all (fun addr =>
        decide (4 * (addr.toNat / 4) ∈ [0x000, 0x020, 0x024, 0x028, 0x030, 0x034, 0x038, 0x03C] ∨
          0x200000 ≤ addr.toNat)) = true := by
  decide

/-- The invariant does not look at the schedule, so any turn can come next; each clause has its address, the first and
last words of the windows among them. -/
theorem witness_ReadsWhileBusy :
    Inv (withTurns busyHiding [.hostRead 0x020#22]) ∧ busy (withTurns busyHiding [.hostRead 0x020#22]) = true ∧
      4 * ((0x008#22 : PortAddr).toNat / 4) = 0x008 ∧
      [0x010000#22, 0x1FFFFC#22].all (fun addr =>
        decide (0x010000 ≤ 4 * (addr.toNat / 4) ∧ 4 * (addr.toNat / 4) < 0x200000)) = true ∧
      [0x200000#22, 0x20003C#22].all (fun addr =>
        decide (0x200000 ≤ 4 * (addr.toNat / 4) ∧ 4 * (addr.toNat / 4) < 0x200000 + 4 * small.outMax)) = true :=
  ⟨{ busyHiding_inv with }, by decide, by decide, by decide, by decide⟩

/-- A completion, an accept, an acknowledgement and a reset, each of which has a next state. -/
theorem witness_InterruptFollowsDoneAndEnable :
    (busy busyHiding = true ∧ sequencerNext busyHiding [] ∧ (next? (step busyHiding)).isSome = true) ∧
      (busy hidingHi = false ∧ (next? (step (withTurns hidingHi [.hostWrite 0x008#22 0#32]))).isSome = true) ∧
      ((2#32).getLsbD 1 = true ∧ (next? (step (withTurns hidingHi [.hostWrite 0x00C#22 2#32]))).isSome = true) ∧
      (next? (step (withTurns busyHiding [.reset [0]]))).isSome = true := by
  decide

theorem witness_ResetTurnRestoresTheResetState :
    (withTurns (accept 0#32 hidingHi) [.reset []]).schedule = .reset [] :: [] ∧
      ∀ held, (accept 0#32 hidingHi).seq ≠ .busy 0x00000001#32 held := by
  refine ⟨by decide, ?_⟩
  intro held h
  cases h

/-- Pixel 39 is the last of the payload's 40, pixel 40 the first beyond it. -/
theorem witness_ResetDuringHideLeavesEachPixelOldOrNew :
    (withTurns busyHiding [.reset [39, 40]]).seq = .busy 0x00000001#32 (operandRegisters hidingHi) ∧
      (withTurns busyHiding [.reset [39, 40]]).schedule = .reset [39, 40] :: [] ∧
      8 * ((operandRegisters hidingHi).msgLen.toNat + 3) = 40 := by
  decide

theorem witness_CarrierAccessWhileBusyFaults :
    busy busyHiding = true ∧ (withTurns busyHiding [.carrierLoad 0 1#8]).schedule = .carrierLoad 0 1#8 :: [] ∧
      (withTurns busyHiding [.carrierSave 0]).schedule = .carrierSave 0 :: [] := by
  decide

/-- The last byte of the Carrier Store. -/
theorem witness_AdapterLoadsAndSavesOneByte :
    busy hidingHi = false ∧ 63 < hidingHi.params.carMax ∧ 63 + 1 = hidingHi.params.carMax ∧
      (withTurns hidingHi [.carrierLoad 63 1#8]).schedule = .carrierLoad 63 1#8 :: [] ∧
      (withTurns hidingHi [.carrierSave 63]).schedule = .carrierSave 63 :: [] := by
  decide

/-- Both faults are raised. -/
theorem witness_OnlyAdapterAccessesStopTheMachine :
    fault? (step (withTurns busyHiding [.carrierSave 0])) = some .hostCarrierConflict ∧
      fault? (step (withTurns hidingHi [.carrierLoad 64 1#8])) = some .carrierOutOfRange := by
  decide

theorem witness_InvariantHoldsAfterReset :
    small.legal ∧ Config.params.legal ∧ Params.legal { pwdMax := 1, msgMax := 0, carMax := 24, outMax := 3 } :=
  ⟨small_legal, params_legal, smallest_legal⟩

theorem witness_EveryStepKeepsTheInvariant :
    Inv busyHiding ∧ (next? (step busyHiding)).isSome = true := ⟨busyHiding_inv, by decide⟩

/-- One step for each listed event. -/
theorem witness_OnlyListedEventsChangeBusyDoneAndBwerr :
    (busy hidingHi = false ∧ seenAfter (.hostWrite 0x008#22 1#32) hidingHi busy = some true) ∧
      (busy busyHiding = true ∧ seenAfter .sequencer busyHiding busy = some false) ∧
      (busyHiding.status.done = false ∧ seenAfter .sequencer busyHiding (·.status.done) = some true) ∧
      seenAfter (.hostWrite 0x00C#22 2#32) { hidingHi with status := { hidingHi.status with done := true } }
        (·.status.done) = some false ∧
      (busyHiding.status.bwerr = false ∧ seenAfter (.hostWrite 0x3FFFFC#22 1#32) busyHiding (·.status.bwerr) = some true) ∧
      seenAfter (.reset []) { hidingHi with status := { hidingHi.status with bwerr := true } } (·.status.bwerr) =
        some false := by
  decide

theorem witness_OnlyListedEventsChangeEachPieceOfState :
    (hidingHi.cursor = 0#32 ∧ seenAfter .sequencer busyHiding (·.cursor) = some 40#32) ∧
      seenAfter (.hostWrite 0x010#22 9#32) hidingHi (·.width) = some 9#32 ∧
      (carrierByte hidingHi 0 = 0x0B#8 ∧ seenAfter .sequencer busyHiding (carrierByte · 0) = some 0x0A#8) ∧
      seenAfter (.carrierLoad 0 7#8) hidingHi (carrierByte · 0) = some 7#8 := by
  decide

theorem witness_EndedRunStaysEnded : runEnded hidingHi := by decide

end Sys2Proof.Machine.Tests
end

section
/-! The invariant's base case: the reset state (10_state.md R45) satisfies `Inv`. -/

namespace Sys2Proof.Machine

/-- A byte array with nothing written lists no index, whatever the size. -/
theorem Memory.below_nil (size : Nat) : Memory.below [] size := List.forall_mem_nil _

@[simp] theorem seq_resetWith (p : Params) : (State.resetWith p).seq = .idle := rfl

@[simp] theorem busy_resetWith (p : Params) : busy (State.resetWith p) = false := rfl

/-- The sequencer is IDLE, so what `Inv` says of a command in progress has no case; the byte arrays are empty, and
STATUS, RESULT, OUT_LEN and CURSOR are 0. -/
theorem inv_resetWith {p : Params} (hp : p.legal) : Inv (State.resetWith p) where
  params_legal := hp
  pwd_wf := .nil
  msg_wf := .nil
  out_wf := .nil
  carrier_wf := .nil
  pwd_below := Memory.below_nil p.pwdMax
  msg_below := Memory.below_nil p.msgMax
  out_below := Memory.below_nil p.outMax
  carrier_below := Memory.below_nil p.carMax
  held_eq := by simp
  busy_clear := by simp
  err_iff := by simp [State.resetWith]
  errcode_mem := by simp [State.resetWith]
  result_lt := by simp [State.resetWith]
  outLen_le := Nat.zero_le p.outMax
  cursor_le := Nat.zero_le p.carMax

/-- Settles O49: the reset state meets every clause of `Inv`, the legal parameters being the first. -/
theorem invariantHoldsAfterReset : Obligations.InvariantHoldsAfterReset :=
  fun _ => inv_resetWith

end Sys2Proof.Machine
end

section
/-! What the word address of a host write decides, what one completion does and leaves alone, and which words decode
to HIDE: the rules that the statements about the state (10_state.md) are proved from. -/

namespace Sys2Proof.Machine

/-! ### The event of a step -/

/-- The sequencer ends a command in this step (40_command.md R112). -/
abbrev completes (s : State) : Prop := busy s = true ∧ ∃ rest, sequencerNext s rest

/-- A command is accepted in this step (40_command.md R110): a host write to CMD, word address 2, while IDLE. -/
abbrev accepts (s : State) : Prop :=
  busy s = false ∧ ∃ a w rest, s.schedule = .hostWrite a w :: rest ∧ a.toNat / 4 = 2

/-- `RST` acts in this step (70_reset_and_hazards.md R270). -/
abbrev resetActs (s : State) : Prop := ∃ written rest, s.schedule = .reset written :: rest

/-- A host write to STATUS, word address 3, with this bit set (10_state.md R24). -/
abbrev clears (bit : Nat) (s : State) : Prop :=
  ∃ a v rest, s.schedule = .hostWrite a v :: rest ∧ a.toNat / 4 = 3 ∧ v.getLsbD bit = true

/-- A host write that BUSY makes the block ignore (10_state.md R30). -/
abbrev loses (s : State) : Prop :=
  busy s = true ∧ ∃ a v rest, s.schedule = .hostWrite a v :: rest ∧ a.toNat / 4 ≠ 3

/-! ### What a host write stores -/

/-- The `CTRL` fields a write of `v` stores (10_state.md R22). -/
theorem ctrlOfWord_eq (v : Word) :
    ctrlOfWord v =
      { cipherEn := v.getLsbD 0
        bitOrder := if v.getLsbD 1 then .lsbFirst else .msbFirst
        irqEn := v.getLsbD 2 } := by
  cases h : v.getLsbD 1 <;> simp only [ctrlOfWord, h] <;> rfl

/-- The two bits a STATUS write may clear, bit by bit of the word (10_state.md R24). -/
theorem clearByOnes_eq (v : Word) (st : Status) :
    clearByOnes v st =
      { st with
        done := if v.getLsbD 1 then false else st.done
        bwerr := if v.getLsbD 5 then false else st.bwerr } := by
  have hbit (d b : Bool) : (d && !b) = if b then false else d := by cases b <;> simp
  rw [clearByOnes, hbit, hbit]

/-- A store to anything but CMD starts no command and leaves STATUS alone. -/
theorem storeWord_seq_status {t : Target} (ht : t ≠ .reg .cmd) (v : Word) (s : State) :
    (storeWord t v s).seq = s.seq ∧ (storeWord t v s).status = s.status := by
  rcases storeWord_cases t v s with hs | ⟨hcmd, -⟩ | ⟨_, _, _, _, _, hs⟩ | ⟨_, -, hs⟩ | ⟨_, -, hs⟩
  · simp [hs]
  · exact absurd hcmd ht
  · simp [hs]
  · simp [hs]
  · simp [hs]

/-! ### Host writes by word address -/

/-- A host write's turn always answers a next state. -/
theorem step_hostWrite {s : State} {a : PortAddr} {v : Word} {rest : List Turn}
    (h : s.schedule = .hostWrite a v :: rest) : step s = .next (hostWrite a v { s with schedule := rest }) :=
  step_turn h

/-- Only STATUS has word address 3 (20_memory.md R62). -/
theorem target_eq_status_iff (p : Params) (a : PortAddr) : target p a = .reg .status ↔ a.toNat / 4 = 3 := by
  rw [target_eq_reg_iff, regOffset]
  omega

/-- Only CMD has word address 2 (20_memory.md R62). -/
theorem target_eq_cmd_iff (p : Params) (a : PortAddr) : target p a = .reg .cmd ↔ a.toNat / 4 = 2 := by
  rw [target_eq_reg_iff, regOffset]
  omega

theorem hostWrite_status {a : PortAddr} (ha : a.toNat / 4 = 3) (v : Word) (s : State) :
    hostWrite a v s = { s with status := clearByOnes v s.status } := by
  rw [hostWrite, if_pos ((target_eq_status_iff _ _).2 ha)]

/-- A host write that comes while BUSY is lost and sets BWERR (10_state.md R30). -/
theorem hostWrite_lost {s : State} (hb : busy s = true) {a : PortAddr} (ha : a.toNat / 4 ≠ 3) (v : Word) :
    hostWrite a v s = { s with status := { s.status with bwerr := true } } := by
  rw [hostWrite, if_neg (mt (target_eq_status_iff _ _).1 ha), if_pos hb]

/-- While IDLE a host write to any register but STATUS is a plain store. -/
theorem hostWrite_reg {s : State} (hb : busy s = false) {a : PortAddr} {r : Reg}
    (ha : 4 * (a.toNat / 4) = regOffset r) (hr : r ≠ .status) (v : Word) :
    hostWrite a v s = storeWord (.reg r) v s := by
  simp [hostWrite, target_of_offset s.params ha, hr, hb]

/-- The step of such a write. -/
theorem step_storeReg {s : State} (hb : busy s = false) {a : PortAddr} {r : Reg}
    (ha : 4 * (a.toNat / 4) = regOffset r) (hr : r ≠ .status) {v : Word} {rest : List Turn}
    (hs : s.schedule = .hostWrite a v :: rest) : step s = .next (storeWord (.reg r) v { s with schedule := rest }) := by
  rw [step_hostWrite hs, hostWrite_reg (s := { s with schedule := rest }) hb ha hr]

theorem hostWrite_cmd {s : State} (hb : busy s = false) {a : PortAddr} (ha : a.toNat / 4 = 2) (w : Word) :
    hostWrite a w s = accept w s :=
  hostWrite_reg hb (r := .cmd) (by rw [regOffset]; omega) (by decide) w

/-- No host write reaches an output, the Carrier Store, a parameter or the count of resets. -/
theorem hostWrite_keeps (a : PortAddr) (v : Word) (s : State) :
    (hostWrite a v s).params = s.params ∧ (hostWrite a v s).outLen = s.outLen ∧
      (hostWrite a v s).result = s.result ∧ (hostWrite a v s).cursor = s.cursor ∧ (hostWrite a v s).out = s.out ∧
      (hostWrite a v s).carrier = s.carrier ∧ (hostWrite a v s).resets = s.resets := by
  rcases hostWrite_cases a v s with ⟨-, h⟩ | ⟨-, h⟩ | ⟨-, h⟩
  · simp [h]
  · simp [h]
  · rcases storeWord_cases (target s.params a) v s with
      hs | ⟨-, hs⟩ | ⟨_, _, _, _, _, hs⟩ | ⟨_, -, hs⟩ | ⟨_, -, hs⟩ <;> simp [h, hs]

/-- A host write that accepts no command leaves the sequencer alone. -/
theorem hostWrite_seq {s : State} {a : PortAddr} (ha : busy s = true ∨ a.toNat / 4 ≠ 2) (v : Word) :
    (hostWrite a v s).seq = s.seq := by
  rcases hostWrite_cases a v s with ⟨-, h⟩ | ⟨-, h⟩ | ⟨hb, h⟩
  · rw [h]
  · rw [h]
  · have hcmd : target s.params a ≠ .reg .cmd := by simpa [target_eq_cmd_iff, hb] using ha
    rw [h, (storeWord_seq_status hcmd v s).1]

/-- A host write while IDLE, to neither STATUS nor CMD, leaves STATUS alone. -/
theorem hostWrite_status_of_idle {s : State} (hb : busy s = false) {a : PortAddr} (h3 : a.toNat / 4 ≠ 3)
    (h2 : a.toNat / 4 ≠ 2) (v : Word) : (hostWrite a v s).status = s.status := by
  have hcmd : target s.params a ≠ .reg .cmd := mt (target_eq_cmd_iff _ _).1 h2
  rw [hostWrite, if_neg (mt (target_eq_status_iff _ _).1 h3), hb, if_neg Bool.false_ne_true,
    (storeWord_seq_status hcmd v s).2]

/-- The bit of the word written decides whether a STATUS write changes DONE (10_state.md R24). -/
theorem getLsbD_of_done_cleared {v : Word} {st : Status} (h : (clearByOnes v st).done ≠ st.done) :
    v.getLsbD 1 = true := by
  by_contra hv
  rw [clearByOnes_eq] at h
  exact h (if_neg hv)

/-- The bit of the word written decides whether a STATUS write changes BWERR (10_state.md R24). -/
theorem getLsbD_of_bwerr_cleared {v : Word} {st : Status} (h : (clearByOnes v st).bwerr ≠ st.bwerr) :
    v.getLsbD 5 = true := by
  by_contra hv
  rw [clearByOnes_eq] at h
  exact h (if_neg hv)

/-- A host write that accepts no command leaves BUSY alone, and changes DONE and BWERR as R24 and R30 say only. -/
theorem hostWrite_flags {s : State} {a : PortAddr} (hna : busy s = true ∨ a.toNat / 4 ≠ 2) (v : Word) :
    busy (hostWrite a v s) = busy s ∧
      ((hostWrite a v s).status.done ≠ s.status.done → a.toNat / 4 = 3 ∧ v.getLsbD 1 = true) ∧
      ((hostWrite a v s).status.bwerr ≠ s.status.bwerr →
        (busy s = true ∧ a.toNat / 4 ≠ 3) ∨ (a.toNat / 4 = 3 ∧ v.getLsbD 5 = true)) := by
  refine ⟨by simp only [busy, hostWrite_seq hna v], ?_⟩
  by_cases h3 : a.toNat / 4 = 3
  · rw [hostWrite_status h3]
    exact ⟨fun hd => ⟨h3, getLsbD_of_done_cleared hd⟩, fun hd => .inr ⟨h3, getLsbD_of_bwerr_cleared hd⟩⟩
  · cases hb : busy s with
    | true =>
      rw [hostWrite_lost hb h3]
      exact ⟨absurd rfl, fun _ => .inl ⟨rfl, h3⟩⟩
    | false =>
      rw [hostWrite_status_of_idle hb h3 (hna.resolve_left (by simp [hb]))]
      exact ⟨absurd rfl, absurd rfl⟩

/-! ### Completion -/

/-- Everything the sequencer's turn can do: nothing while IDLE, or the end of the held word's command. -/
theorem complete_cases {s t : State} (h : complete s = .next t) :
    (s.seq = .idle ∧ t = s) ∨
    ∃ w held, s.seq = .busy w held ∧
      ((∃ i, decode w = .ok i ∧ t = ended i s) ∨ t = raiseError .illegalCmd s) := by
  cases hs : s.seq with
  | idle =>
    rw [complete_idle hs] at h
    injection h with h
    exact .inl ⟨rfl, h.symm⟩
  | busy w held =>
    refine .inr ⟨w, held, rfl, ?_⟩
    rcases complete_busy hs with ⟨i, hd, hc⟩ | ⟨-, hc⟩
    · rw [hc] at h
      injection h with h
      exact .inl ⟨i, hd, h.symm⟩
    · rw [hc] at h
      injection h with h
      exact .inr h.symm

section Frame
variable (i : Instr) (s : State)

@[simp] theorem ended_saved : (ended i s).saved = s.saved := by
  rcases ended_cases i s with ⟨e, _, h⟩ | ⟨_, h⟩ <;> simp [h]
@[simp] theorem ended_resets : (ended i s).resets = s.resets := by
  rcases ended_cases i s with ⟨e, _, h⟩ | ⟨_, h⟩ <;> simp [h]
@[simp] theorem operandRegisters_ended : operandRegisters (ended i s) = operandRegisters s := by
  rcases ended_cases i s with ⟨e, _, h⟩ | ⟨_, h⟩ <;> simp [h, operandRegisters]
@[simp] theorem operandRegisters_raiseError (e : ErrorCode) :
    operandRegisters (raiseError e s) = operandRegisters s := rfl

end Frame

/-- What the end of a command in progress does to BUSY, DONE, BWERR and CTRL (40_command.md R112). -/
theorem complete_flags {s t : State} (hb : busy s = true) (h : complete s = .next t) :
    busy t = false ∧ t.status.done = true ∧ t.status.bwerr = s.status.bwerr ∧ t.ctrl = s.ctrl := by
  rcases complete_cases h with ⟨hi, -⟩ | ⟨w, held, -, ⟨i, -, rfl⟩ | rfl⟩
  · simp [busy, hi] at hb
  · simp
  · simp

/-- The sequencer's turn changes no operand, no parameter and no count of resets, BUSY or not. -/
theorem complete_keeps {s t : State} (h : complete s = .next t) :
    operandRegisters t = operandRegisters s ∧ t.params = s.params ∧ t.pwd = s.pwd ∧ t.msg = s.msg ∧
      t.resets = s.resets := by
  rcases complete_cases h with ⟨-, rfl⟩ | ⟨w, held, -, ⟨i, -, rfl⟩ | rfl⟩
  · simp
  · simp
  · simp

/-- A step in which the sequencer moves, from the block's state before it. -/
theorem complete_of_step {s t : State} {rest : List Turn} (hn : sequencerNext s rest) (h : step s = .next t) :
    complete { s with schedule := rest } = .next t := by
  rw [← step_sequencer hn, h]

/-- The sequencer's turn while IDLE only moves the schedule on. -/
theorem eq_of_complete_idle {s t : State} {rest : List Turn} (hb : busy s = false)
    (h : complete { s with schedule := rest } = .next t) : t = { s with schedule := rest } := by
  rw [complete_idle (s := { s with schedule := rest }) (seq_of_not_busy hb)] at h
  injection h with h
  exact h.symm

/-! ### What each command leaves alone (10_state.md R28 to R38, R44) -/

section Outputs
variable {i : Instr} (s : State)

theorem performed_out_of_ne (hf : i ≠ .frame) (hu : i ≠ .unframe) (hs : i ≠ .showCmd) :
    (performed i s).out = s.out ∧ (performed i s).outLen = s.outLen := by
  cases i with
  | frame => exact absurd rfl hf
  | unframe => exact absurd rfl hu
  | showCmd => exact absurd rfl hs
  | nop | hide | chkcap | maskat _ => exact ⟨rfl, rfl⟩

theorem performed_result_of_ne (hm : ∀ k, i ≠ .maskat k) : (performed i s).result = s.result := by
  cases i with
  | maskat k => exact absurd rfl (hm k)
  | nop | hide | showCmd | chkcap | frame | unframe => rfl

theorem performed_cursor_of_ne (hh : i ≠ .hide) (hs : i ≠ .showCmd) : (performed i s).cursor = s.cursor := by
  cases i with
  | hide => exact absurd rfl hh
  | showCmd => exact absurd rfl hs
  | nop | chkcap | maskat _ | frame | unframe => rfl

theorem performed_carrier_of_ne (hh : i ≠ .hide) : (performed i s).carrier = s.carrier := by
  cases i with
  | hide => exact absurd rfl hh
  | nop | showCmd | chkcap | maskat _ | frame | unframe => rfl

theorem performed_term_of_ne (hs : i ≠ .showCmd) : (performed i s).status.term = s.status.term := by
  cases i with
  | showCmd => exact absurd rfl hs
  | nop | hide | chkcap | maskat _ | frame | unframe => rfl

theorem performed_capOk_of_ne (hh : i ≠ .hide) (hc : i ≠ .chkcap) :
    (performed i s).status.capOk = s.status.capOk := by
  cases i with
  | hide => exact absurd rfl hh
  | chkcap => exact absurd rfl hc
  | nop | showCmd | maskat _ | frame | unframe => rfl

theorem ended_carrier_of_ne (hh : i ≠ .hide) : (ended i s).carrier = s.carrier := by
  rcases ended_cases i s with ⟨e, -, h⟩ | ⟨-, h⟩
  · rw [h, raiseError_carrier]
  · rw [h, finish_carrier, performed_carrier_of_ne s hh]

end Outputs

/-! ### The pixels a HIDE reaches -/

/-- The stream length of the command in progress, from its held message length (44_pack.md R194). -/
theorem framedBits_of_seq_busy {s : State} {w : Word} {held : Operands} (h : s.seq = .busy w held) :
    framedBits s = 8 * (held.msgLen.toNat + 3) := by
  rw [framedBits, framedLength, messageLength, operands_of_seq_busy h]

/-- Whether it ends with an error or not, a HIDE leaves every pixel from `8 * (Lm + 3)` on (44_pack.md R194). -/
theorem carrierByte_ended_hide {s : State} {k : Nat} (hk : framedBits s ≤ k) :
    carrierByte (ended .hide s) k = carrierByte s k := by
  rcases ended_cases .hide s with ⟨e, -, h⟩ | ⟨-, h⟩
  · rw [h]
    rfl
  · rw [h]
    exact (carrierByte_packed s k).trans (if_neg (by omega))

theorem mem_cutPixels {written : List Nat} {s : State} {j : Nat} (h : j ∈ cutPixels written s) :
    j < framedBits s ∧ valid .hide s = true ∧ capacityOk s := by
  unfold cutPixels at h
  split at h
  · rename_i hok
    exact ⟨List.mem_range.1 (List.mem_filter.1 h).1, hok⟩
  · simp at h

theorem nodup_cutPixels (written : List Nat) (s : State) : (cutPixels written s).Nodup := by
  unfold cutPixels
  split
  · exact List.nodup_range.filter _
  · exact List.nodup_nil

/-- A reset during a HIDE leaves every pixel from `8 * (Lm + 3)` on (70_reset_and_hazards.md R272). -/
theorem csRead_cutHide {s : State} {k : Nat} (hk : framedBits s ≤ k) (written : List Nat) :
    csRead (cutHide written s) k = carrierByte s k := by
  have hnot : k ∉ cutPixels written s := fun h => by
    have := (mem_cutPixels h).1
    omega
  rw [cutHide, csRead_foldl_pixelWrite _ (nodup_cutPixels written s), if_neg hnot, carrierByte]

/-- The two fields of a word, put together again (30_encoding.md R91). -/
theorem immField_append_opField (w : Word) : immField w ++ opField w = w := by
  ext j hj
  rw [BitVec.getElem_append]
  by_cases h : j < 8
  · simp [opField, h, BitVec.getLsbD_eq_getElem hj]
  · simp [immField, h, BitVec.getLsbD_eq_getElem hj, show 8 + (j - 8) = j by omega]

theorem eq_one_of_plainCommand_hide : ∀ op : BitVec 8, plainCommand op = some .hide → op = 0x01#8 := by decide

/-- HIDE has one word (30_encoding.md R93). -/
theorem eq_one_of_decode_hide {w : Word} (h : decode w = .ok .hide) : w = 0x00000001#32 := by
  unfold decode at h
  split at h
  · simp at h
  · split at h
    · simp at h
    · rename_i i hplain
      split at h
      · rename_i himm
        injection h with hi
        rw [hi] at hplain
        rw [← immField_append_opField w, himm, eq_one_of_plainCommand_hide _ hplain]
        decide
      · simp at h

end Sys2Proof.Machine
end

section
/-! The invariant `Inv`: what each turn's operation does to it, and that every step keeps it (O50). -/

namespace Sys2Proof.Machine

/-- A register loaded with a number holds at most that number. -/
theorem toNat_ofNat_le (w n : Nat) : (BitVec.ofNat w n).toNat ≤ n := by
  rw [BitVec.toNat_ofNat]
  exact Nat.mod_le _ _

section Turns
variable {s : State}

/-- The model's own fields are nothing to the invariant. -/
theorem Inv.outside (h : Inv s) (sc : List Turn) (rd : List Word) (sv : List Byte) (n : Nat) :
    Inv { s with schedule := sc, reads := rd, saved := sv, draws := n } :=
  { h with }

theorem Inv.schedule (h : Inv s) (sc : List Turn) : Inv { s with schedule := sc } := h.outside sc _ _ _

theorem Inv.hostRead (h : Inv s) (a : PortAddr) : Inv (hostRead a s) := h.outside _ _ _ _

/-- DONE may only rise when the block is IDLE; BWERR is free. -/
theorem Inv.doneBwerr (h : Inv s) {d : Bool} (b : Bool) (hd : busy s = true → d = false) :
    Inv { s with status := { s.status with done := d, bwerr := b } } :=
  { h with
    busy_clear := fun hb => by
      obtain ⟨-, hclear⟩ := h.busy_clear hb
      exact ⟨hd hb, hclear⟩ }

theorem Inv.accept (h : Inv s) (w : Word) : Inv (accept w s) :=
  { h with
    held_eq := fun _ _ hseq => by
      injection hseq with _ hheld
      exact hheld.symm
    busy_clear := fun _ => ⟨rfl, rfl, rfl, rfl, rfl⟩
    err_iff := by simp [acceptFlags]
    errcode_mem := by simp [acceptFlags] }

/-- While IDLE the operand registers are free: no command holds a copy of them. -/
theorem Inv.operandRegisters (h : Inv s) (hb : busy s = false) (c : Ctrl) (w ht p m : Word) :
    Inv { s with ctrl := c, width := w, height := ht, pwdLen := p, msgLen := m } :=
  { h with
    held_eq := fun _ _ hseq => by
      rw [show s.seq = .idle from seq_of_not_busy hb] at hseq
      cases hseq }

theorem Inv.pwdWrite (h : Inv s) {i : Nat} (hi : i < s.params.pwdMax) (v : Byte) :
    Inv { s with pwd := s.pwd.write i v } :=
  { h with
    pwd_wf := Memory.wf_write h.pwd_wf i v
    pwd_below := Memory.below_write h.pwd_below hi v }

theorem Inv.msgWrite (h : Inv s) {i : Nat} (hi : i < s.params.msgMax) (v : Byte) :
    Inv { s with msg := s.msg.write i v } :=
  { h with
    msg_wf := Memory.wf_write h.msg_wf i v
    msg_below := Memory.below_write h.msg_below hi v }

theorem Inv.carrierWrite (h : Inv s) {k : Nat} (hk : k < s.params.carMax) (v : Byte) :
    Inv { s with carrier := csWrite s.carrier k v } :=
  { h with
    carrier_wf := Memory.wf_write h.carrier_wf k v
    carrier_below := Memory.below_write h.carrier_below hk v }

theorem Inv.storeWord (h : Inv s) (hb : busy s = false) (a : PortAddr) (v : Word) :
    Inv (storeWord (target s.params a) v s) := by
  rcases storeWord_cases (target s.params a) v s with
    hs | ⟨-, hs⟩ | ⟨_, _, _, _, _, hs⟩ | ⟨i, ht, hs⟩ | ⟨i, ht, hs⟩ <;> rw [hs]
  · exact h
  · exact h.accept v
  · exact h.operandRegisters hb _ _ _ _ _
  · exact h.pwdWrite (target_pwd_inv ht).2 _
  · exact h.msgWrite (target_msg_inv ht).2 _

theorem Inv.hostWrite (h : Inv s) (a : PortAddr) (v : Word) : Inv (hostWrite a v s) := by
  rcases hostWrite_cases a v s with ⟨-, hw⟩ | ⟨-, hw⟩ | ⟨hb, hw⟩ <;> rw [hw]
  · exact h.doneBwerr _ (fun hb => by simp [(h.busy_clear hb).1])
  · exact h.doneBwerr _ (fun hb => (h.busy_clear hb).1)
  · exact h.storeWord hb a v

/-- The cut HIDE writes pixels of the carrier only: it would have passed its checks (40_command.md R114). -/
theorem Inv.carrierAfterReset (h : Inv s) (written : List Nat) :
    (carrierAfterReset written s).wf ∧ (carrierAfterReset written s).below s.params.carMax := by
  have hpixels : ∀ j ∈ cutPixels written s, j < s.params.carMax := fun j hj => by
    obtain ⟨hlt, hvalid, hcap⟩ := mem_cutPixels hj
    obtain ⟨-, -, hcar⟩ := (valid_hide_iff s).1 hvalid
    omega
  have hcut : (cutHide written s).wf ∧ (cutHide written s).below s.params.carMax :=
    ⟨wf_foldl_pixelWrite _ _ h.carrier_wf, below_foldl_pixelWrite _ hpixels h.carrier_below⟩
  unfold Machine.carrierAfterReset
  split
  · exact ⟨h.carrier_wf, h.carrier_below⟩
  · split
    · exact hcut
    · exact ⟨h.carrier_wf, h.carrier_below⟩

/-- After a reset everything but the Carrier Store is as in the reset state. -/
theorem Inv.resetBlock (h : Inv s) (written : List Nat) : Inv (resetBlock written s) :=
  { inv_resetWith h.params_legal with
    carrier_wf := (h.carrierAfterReset written).1
    carrier_below := (h.carrierAfterReset written).2 }

/-! ### The end of a command -/

theorem Inv.finish (h : Inv s) : Inv (finish s) :=
  { h with
    held_eq := by simp
    busy_clear := by simp }

/-- A failed command reports a code of 60_exceptions.md R240, never the reserved code 2. -/
theorem Inv.raiseError (h : Inv s) {e : ErrorCode} (he : e ≠ .capacityPack) : Inv (raiseError e s) :=
  { h.finish with
    err_iff := by cases e <;> simp [errorNumber]
    errcode_mem := by cases e <;> simp [errorNumber] at he ⊢
    busy_clear := by simp }

theorem Inv.performed_nop (h : Inv s) : Inv (Machine.finish (performed .nop s)) := h.finish

theorem Inv.performed_chkcap (h : Inv s) : Inv (Machine.finish (performed .chkcap s)) :=
  { h.finish with busy_clear := by simp }

/-- RESULT is one byte, zero-extended (41_cipher.md R134). -/
theorem Inv.performed_maskat (h : Inv s) (k : Nat) : Inv (Machine.finish (performed (.maskat k) s)) :=
  { h.finish with
    result_lt := by
      show ((maskByte s k).setWidth 32).toNat < 256
      rw [BitVec.toNat_setWidth]
      exact (Nat.mod_le _ _).trans_lt (maskByte s k).isLt }

/-- The pixels of a HIDE that passes its checks are pixels of the carrier (44_pack.md R196). -/
theorem Inv.performed_hide (h : Inv s) (hv : valid .hide s = true) (hc : capacityOk s) :
    Inv (Machine.finish (performed .hide s)) := by
  obtain ⟨-, -, hcar⟩ := (valid_hide_iff s).1 hv
  have hfits : framedBits s ≤ s.params.carMax := hc.trans hcar
  have hpixels : ∀ j ∈ List.range (framedBits s), j < s.params.carMax := fun j hj =>
    (List.mem_range.1 hj).trans_le hfits
  exact { h.finish with
    carrier_wf := wf_foldl_pixelWrite _ _ h.carrier_wf
    carrier_below := below_foldl_pixelWrite _ hpixels h.carrier_below
    cursor_le := (toNat_ofNat_le _ _).trans hfits
    busy_clear := by simp }

/-- The first `n` entries of OUT may be written when OUT has that many. -/
theorem Inv.outWrite (h : Inv s) (f : Nat → Byte) {n : Nat} (hn : n ≤ s.params.outMax) :
    Inv { s with out := storeBytes f (List.range n) s.out, outLen := BitVec.ofNat 32 n } :=
  { h with
    out_wf := storeBytes_wf f _ h.out_wf
    out_below := storeBytes_below f (fun _ hi => (List.mem_range.1 hi).trans_le hn) h.out_below
    outLen_le := (toNat_ofNat_le _ _).trans hn }

/-- `MSG_MAX + 3 <= OUT_MAX` (00_scope.md R9) is the bound of a framed message. -/
theorem Inv.performed_frame (h : Inv s) (hv : valid .frame s = true) :
    Inv (Machine.finish (performed .frame s)) := by
  obtain ⟨-, hmsg⟩ := (valid_frame_iff s).1 hv
  obtain ⟨-, -, -, hout, -, -⟩ := h.params_legal
  exact (h.outWrite (framedByte s) (n := framedLength s) (by unfold framedLength; omega)).finish

theorem Inv.performed_unframe (h : Inv s) (hv : valid .unframe s = true) :
    Inv (Machine.finish (performed .unframe s)) := by
  obtain ⟨-, hmsg⟩ := (valid_unframe_iff s).1 hv
  obtain ⟨-, -, -, hout, -, -⟩ := h.params_legal
  exact (h.outWrite (unframedByte s) (n := messageLength s) (by omega)).finish

/-- `CAR_MAX div 8 <= OUT_MAX` (00_scope.md R9) is the bound of the bytes a SHOW finds. -/
theorem Inv.performed_showCmd (h : Inv s) (hv : valid .showCmd s = true) :
    Inv (Machine.finish (performed .showCmd s)) := by
  obtain ⟨-, hcar⟩ := (valid_showCmd_iff s).1 hv
  obtain ⟨-, -, -, -, hout, -⟩ := h.params_legal
  obtain ⟨hlen, hpixels⟩ := scanCarrier_bounds s
  have hfits : scanLength (scanCarrier s) ≤ s.params.outMax :=
    hlen.trans ((Nat.div_le_div_right hcar).trans hout)
  exact { (h.outWrite _ hfits).finish with
    cursor_le := (toNat_ofNat_le _ _).trans (hpixels.trans hcar)
    busy_clear := by simp }

theorem Inv.ended (h : Inv s) (i : Instr) : Inv (ended i s) := by
  rcases ended_cases i s with ⟨e, he, hend⟩ | ⟨hok, hend⟩ <;> rw [hend]
  · exact h.raiseError (by rcases commandError_cases he with rfl | rfl <;> decide)
  · have hv := valid_of_success hok
    cases i with
    | nop => exact h.performed_nop
    | hide => exact h.performed_hide hv (capacityOk_of_success hok)
    | showCmd => exact h.performed_showCmd hv
    | chkcap => exact h.performed_chkcap
    | maskat k => exact h.performed_maskat k
    | frame => exact h.performed_frame hv
    | unframe => exact h.performed_unframe hv

theorem Inv.complete {t : State} (h : Inv s) (hc : complete s = .next t) : Inv t := by
  rcases complete_cases hc with ⟨-, rfl⟩ | ⟨w, held, -, ⟨i, -, rfl⟩ | rfl⟩
  · exact h
  · exact h.ended i
  · exact h.raiseError (by decide)

end Turns

/-- Settles O50: the turn that a step takes (`step_cases`) is one of six, and each keeps `Inv`. -/
theorem everyStepKeepsTheInvariant : Obligations.EveryStepKeepsTheInvariant := by
  intro s t h hstep
  rcases step_cases hstep with ⟨rest, -, hc⟩ | ⟨a, rest, -, rfl⟩ | ⟨a, v, rest, -, rfl⟩ |
    ⟨k, v, rest, -, -, hk, rfl⟩ | ⟨k, rest, -, -, -, rfl⟩ | ⟨written, rest, -, rfl⟩
  · exact (h.schedule rest).complete hc
  · exact (h.schedule rest).hostRead a
  · exact (h.schedule rest).hostWrite a v
  · exact (h.schedule rest).carrierWrite hk v
  · exact h.outside rest s.reads _ s.draws
  · exact (h.schedule rest).resetBlock written

end Sys2Proof.Machine
end

section
/-! Which event of a step may change what (10_state.md R25, R33, R34, R36, R38, R44): said once per piece of state, from
`step_cases`. -/

namespace Sys2Proof.Machine

/-! ### BUSY, DONE and BWERR -/

/-- `accept(w)` sets BUSY and clears DONE (10_state.md R25, R26). -/
theorem flags_of_accepts {s t : State} (h : step s = .next t) (ha : accepts s) :
    busy t = true ∧ t.status.done = false ∧ t.status.bwerr = s.status.bwerr := by
  obtain ⟨hb, a, w, rest, hs, ha⟩ := ha
  rw [step_hostWrite hs, hostWrite_cmd (s := { s with schedule := rest }) hb ha] at h
  injection h with h
  subst h
  exact ⟨rfl, rfl, rfl⟩

theorem flags_of_completes {s t : State} (h : step s = .next t) (hc : completes s) :
    busy t = false ∧ t.status.done = true ∧ t.status.bwerr = s.status.bwerr ∧ t.ctrl = s.ctrl := by
  obtain ⟨hb, rest, hn⟩ := hc
  exact complete_flags (s := { s with schedule := rest }) hb (complete_of_step hn h)

theorem flags_of_resetActs {s t : State} (h : step s = .next t) (hr : resetActs s) :
    busy t = false ∧ t.status.done = false ∧ t.status.bwerr = false := by
  obtain ⟨written, rest, hs⟩ := hr
  rw [step_turn hs] at h
  injection h with h
  subst h
  exact ⟨rfl, rfl, rfl⟩

theorem status_of_statusWrite {s t : State} (h : step s = .next t) {a : PortAddr} {v : Word} {rest : List Turn}
    (hs : s.schedule = .hostWrite a v :: rest) (ha : a.toNat / 4 = 3) : t.status = clearByOnes v s.status := by
  rw [step_hostWrite hs, hostWrite_status ha] at h
  injection h with h
  subst h
  rfl

theorem done_of_clears {s t : State} (h : step s = .next t) (hc : clears 1 s) : t.status.done = false := by
  obtain ⟨a, v, rest, hs, ha, hv⟩ := hc
  rw [status_of_statusWrite h hs ha, clearByOnes_eq]
  exact if_pos hv

theorem bwerr_of_clears {s t : State} (h : step s = .next t) (hc : clears 5 s) : t.status.bwerr = false := by
  obtain ⟨a, v, rest, hs, ha, hv⟩ := hc
  rw [status_of_statusWrite h hs ha, clearByOnes_eq]
  exact if_pos hv

theorem bwerr_of_loses {s t : State} (h : step s = .next t) (hl : loses s) : t.status.bwerr = true := by
  obtain ⟨hb, a, v, rest, hs, ha⟩ := hl
  rw [step_hostWrite hs, hostWrite_lost (s := { s with schedule := rest }) hb ha] at h
  injection h with h
  subst h
  rfl

/-- A step that ends no command, accepts none and is no reset changes DONE and BWERR by a host write at most. -/
theorem flags_of_step {s t : State} (h : step s = .next t) (hnc : ¬ completes s) (hna : ¬ accepts s)
    (hnr : ¬ resetActs s) :
    busy t = busy s ∧ (t.status.done ≠ s.status.done → clears 1 s) ∧
      (t.status.bwerr ≠ s.status.bwerr → loses s ∨ clears 5 s) := by
  rcases step_cases h with ⟨rest, hn, hc⟩ | ⟨a, rest, -, rfl⟩ | ⟨a, v, rest, hs, rfl⟩ |
    ⟨k, v, rest, -, -, -, rfl⟩ | ⟨k, rest, -, -, -, rfl⟩ | ⟨written, rest, hs, -⟩
  · have hb : busy s = false := by simpa using fun hb => hnc ⟨hb, rest, hn⟩
    rw [eq_of_complete_idle hb hc]
    exact ⟨rfl, absurd rfl, absurd rfl⟩
  · exact ⟨rfl, absurd rfl, absurd rfl⟩
  · have hncmd : busy s = true ∨ a.toNat / 4 ≠ 2 := by
      by_contra hn
      push Not at hn
      exact hna ⟨by simpa using hn.1, a, v, rest, hs, hn.2⟩
    obtain ⟨hbusy, hdone, hbwerr⟩ := hostWrite_flags (s := { s with schedule := rest }) hncmd v
    refine ⟨hbusy, fun hd => ⟨a, v, rest, hs, hdone hd⟩, fun hd => ?_⟩
    rcases hbwerr hd with ⟨hb, h3⟩ | hclear
    · exact .inl ⟨hb, a, v, rest, hs, h3⟩
    · exact .inr ⟨a, v, rest, hs, hclear⟩
  · exact ⟨rfl, absurd rfl, absurd rfl⟩
  · exact ⟨rfl, absurd rfl, absurd rfl⟩
  · exact absurd ⟨written, rest, hs⟩ hnr

theorem event_of_busy_change {s t : State} (h : step s = .next t) (hne : busy t ≠ busy s) :
    accepts s ∨ completes s ∨ resetActs s := by
  by_contra hn
  simp only [not_or] at hn
  obtain ⟨hna, hnc, hnr⟩ := hn
  exact hne (flags_of_step h hnc hna hnr).1

theorem event_of_done_change {s t : State} (h : step s = .next t) (hne : t.status.done ≠ s.status.done) :
    completes s ∨ accepts s ∨ clears 1 s ∨ resetActs s := by
  by_contra hn
  simp only [not_or] at hn
  obtain ⟨hnc, hna, hncl, hnr⟩ := hn
  obtain ⟨-, hdone, -⟩ := flags_of_step h hnc hna hnr
  exact hncl (hdone hne)

/-- Neither accept nor the end of a command touches BWERR, so they need no mention here. -/
theorem event_of_bwerr_change {s t : State} (h : step s = .next t) (hne : t.status.bwerr ≠ s.status.bwerr) :
    loses s ∨ clears 5 s ∨ resetActs s := by
  have hnc : ¬ completes s := fun hc => by
    obtain ⟨-, -, hkept, -⟩ := flags_of_completes h hc
    exact hne hkept
  have hna : ¬ accepts s := fun ha => by
    obtain ⟨-, -, hkept⟩ := flags_of_accepts h ha
    exact hne hkept
  by_cases hnr : resetActs s
  · exact .inr (.inr hnr)
  · obtain ⟨-, -, hbwerr⟩ := flags_of_step h hnc hna hnr
    exact (hbwerr hne).imp_right .inl

/-! ### Outputs, operands, buffers and the Carrier Store -/

/-- Only the end of a command and a reset change an output (10_state.md R33, R34, R36, R38). -/
theorem outputs_of_step {s t : State} (h : step s = .next t) (hnc : ¬ completes s) (hnr : ¬ resetActs s) :
    t.outLen = s.outLen ∧ t.result = s.result ∧ t.cursor = s.cursor ∧ ∀ i, outByte t i = outByte s i := by
  rcases step_cases h with ⟨rest, hn, hc⟩ | ⟨a, rest, -, rfl⟩ | ⟨a, v, rest, -, rfl⟩ |
    ⟨k, v, rest, -, -, -, rfl⟩ | ⟨k, rest, -, -, -, rfl⟩ | ⟨written, rest, hs, -⟩
  · have hb : busy s = false := by simpa using fun hb => hnc ⟨hb, rest, hn⟩
    rw [eq_of_complete_idle hb hc]
    exact ⟨rfl, rfl, rfl, fun _ => rfl⟩
  · exact ⟨rfl, rfl, rfl, fun _ => rfl⟩
  · obtain ⟨-, hlen, hresult, hcursor, hout, -, hresets⟩ := hostWrite_keeps a v { s with schedule := rest }
    exact ⟨hlen, hresult, hcursor, fun i => by rw [outByte, hout, hresets, outByte]⟩
  · exact ⟨rfl, rfl, rfl, fun _ => rfl⟩
  · exact ⟨rfl, rfl, rfl, fun _ => rfl⟩
  · exact absurd ⟨written, rest, hs⟩ hnr

/-- Only a host write while IDLE and a reset change an operand register, PWD or MSG (40_command.md R111). -/
theorem operands_of_step {s t : State} (h : step s = .next t)
    (hnw : ¬ (busy s = false ∧ ∃ a v rest, s.schedule = .hostWrite a v :: rest)) (hnr : ¬ resetActs s) :
    operandRegisters t = operandRegisters s ∧ (∀ i, pwdByte t i = pwdByte s i) ∧
      ∀ i, msgByte t i = msgByte s i := by
  rcases step_cases h with ⟨rest, -, hc⟩ | ⟨a, rest, -, rfl⟩ | ⟨a, v, rest, hs, rfl⟩ |
    ⟨k, v, rest, -, -, -, rfl⟩ | ⟨k, rest, -, -, -, rfl⟩ | ⟨written, rest, hs, -⟩
  · obtain ⟨hregs, -, hpwd, hmsg, hresets⟩ := complete_keeps hc
    exact ⟨hregs, fun i => by simp only [pwdByte, hpwd, hresets], fun i => by simp only [msgByte, hmsg, hresets]⟩
  · exact ⟨rfl, fun _ => rfl, fun _ => rfl⟩
  · have hb : busy s = true := by simpa using fun hb => hnw ⟨hb, a, v, rest, hs⟩
    obtain ⟨d, b, hw⟩ := hostWrite_busy (s := { s with schedule := rest }) hb a v
    rw [hw]
    exact ⟨rfl, fun _ => rfl, fun _ => rfl⟩
  · exact ⟨rfl, fun _ => rfl, fun _ => rfl⟩
  · exact ⟨rfl, fun _ => rfl, fun _ => rfl⟩
  · exact absurd ⟨written, rest, hs⟩ hnr

/-- A pixel that the sequencer's turn changes is one that a HIDE in progress reaches. -/
theorem hide_of_complete_pixel {s t : State} {k : Nat} (h : complete s = .next t)
    (hk : carrierByte t k ≠ carrierByte s k) :
    ∃ held, s.seq = .busy 0x00000001#32 held ∧ k < 8 * (held.msgLen.toNat + 3) := by
  rcases complete_cases h with ⟨-, rfl⟩ | ⟨w, held, hseq, ⟨i, hd, rfl⟩ | rfl⟩
  · exact absurd rfl hk
  · by_cases hi : i = .hide
    · subst hi
      refine ⟨held, eq_one_of_decode_hide hd ▸ hseq, ?_⟩
      rw [← framedBits_of_seq_busy hseq]
      by_contra hlt
      exact hk (carrierByte_ended_hide (not_lt.1 hlt))
    · exact absurd (by rw [carrierByte, ended_carrier_of_ne s hi, carrierByte]) hk
  · exact absurd rfl hk

/-- A pixel that a reset changes is one that a HIDE in progress reaches (70_reset_and_hazards.md R272, R273). -/
theorem hide_of_reset_pixel {s : State} {written : List Nat} {k : Nat}
    (hk : csRead (carrierAfterReset written s) k ≠ carrierByte s k) :
    ∃ held, s.seq = .busy 0x00000001#32 held ∧ k < 8 * (held.msgLen.toNat + 3) := by
  unfold carrierAfterReset at hk
  split at hk
  · exact absurd rfl hk
  · rename_i w held hseq
    split at hk
    · rename_i hd
      refine ⟨held, eq_one_of_decode_hide hd ▸ hseq, ?_⟩
      rw [← framedBits_of_seq_busy hseq]
      by_contra hlt
      exact hk (csRead_cutHide (not_lt.1 hlt) written)
    · exact absurd rfl hk

/-- Only the adapter while IDLE, and the end or the reset of a HIDE, change a byte of the Carrier Store
(10_state.md R44, 20_memory.md R74). -/
theorem event_of_carrier_change {s t : State} (h : step s = .next t) {k : Nat}
    (hk : carrierByte t k ≠ carrierByte s k) :
    (busy s = false ∧ ∃ v rest, s.schedule = .carrierLoad k v :: rest) ∨
      ∃ held, s.seq = .busy 0x00000001#32 held ∧ k < 8 * (held.msgLen.toNat + 3) ∧
        ((∃ rest, sequencerNext s rest) ∨ resetActs s) := by
  rcases step_cases h with ⟨rest, hn, hc⟩ | ⟨a, rest, -, rfl⟩ | ⟨a, v, rest, -, rfl⟩ |
    ⟨j, v, rest, hs, hb, -, rfl⟩ | ⟨j, rest, -, -, -, rfl⟩ | ⟨written, rest, hs, rfl⟩
  · obtain ⟨held, hseq, hlt⟩ := hide_of_complete_pixel hc hk
    exact .inr ⟨held, hseq, hlt, .inl ⟨rest, hn⟩⟩
  · exact absurd rfl hk
  · obtain ⟨-, -, -, -, -, hcarrier, -⟩ := hostWrite_keeps a v { s with schedule := rest }
    exact absurd (by rw [carrierByte, hcarrier, carrierByte]) hk
  · have hkj : k = j := by
      by_contra hne
      exact hk ((csRead_csWrite _ _ _ _).trans (if_neg hne))
    exact .inl ⟨hb, v, rest, hkj ▸ hs⟩
  · exact absurd rfl hk
  · obtain ⟨held, hseq, hlt⟩ := hide_of_reset_pixel (s := { s with schedule := rest }) hk
    exact .inr ⟨held, hseq, hlt, .inr ⟨written, rest, hs⟩⟩

/-- No step changes a parameter (00_scope.md R6 to R9). -/
theorem params_of_step {s t : State} (h : step s = .next t) : t.params = s.params := by
  rcases step_cases h with ⟨rest, -, hc⟩ | ⟨a, rest, -, rfl⟩ | ⟨a, v, rest, -, rfl⟩ |
    ⟨k, v, rest, -, -, -, rfl⟩ | ⟨k, rest, -, -, -, rfl⟩ | ⟨written, rest, -, rfl⟩
  · obtain ⟨-, hparams, -⟩ := complete_keeps hc
    exact hparams
  · rfl
  · obtain ⟨hparams, -⟩ := hostWrite_keeps a v { s with schedule := rest }
    exact hparams
  · rfl
  · rfl
  · rfl

end Sys2Proof.Machine
end

section
/-! The statements about the state (10_state.md), each from the lemmas above. -/

namespace Sys2Proof.Machine

/-- Settles O9: word address 3 is STATUS, whose write is `clearByOnes`. -/
theorem statusWriteClearsOnlyDoneAndBwerr : Obligations.StatusWriteClearsOnlyDoneAndBwerr := by
  intro s v rest hs
  rw [step_hostWrite hs, hostWrite_status (by decide), clearByOnes_eq]

/-- Settles O14: a failed command changes STATUS alone, and a successful one what `performed` says of it. -/
theorem eachCommandWritesOnlyItsOutputs : Obligations.EachCommandWritesOnlyItsOutputs := by
  intro i s t h
  rw [exec_next_iff] at h
  subst h
  refine ⟨by simp, ?_⟩
  rcases ended_cases i s with ⟨e, -, hend⟩ | ⟨-, hend⟩ <;> rw [hend]
  · simp
  · exact ⟨performed_out_of_ne s, performed_result_of_ne s, performed_cursor_of_ne s, performed_carrier_of_ne s,
      performed_term_of_ne s, performed_capOk_of_ne s⟩

/-- Settles O36: while IDLE each of the five is a plain store to its register. -/
theorem operandRegisterWritesStore : Obligations.OperandRegisterWritesStore := by
  intro s v rest hb
  refine ⟨fun hs => ?_, step_storeReg hb (r := .width) (by decide) (by decide),
    step_storeReg hb (r := .height) (by decide) (by decide), step_storeReg hb (r := .pwdLen) (by decide) (by decide),
    step_storeReg hb (r := .msgLen) (by decide) (by decide)⟩
  rw [step_storeReg hb (r := .ctrl) (by decide) (by decide) hs, ← ctrlOfWord_eq]
  rfl

/-- Settles O41: IRQ is DONE and IRQ_EN, and the listed events fix DONE. -/
theorem interruptFollowsDoneAndEnable : Obligations.InterruptFollowsDoneAndEnable := by
  intro s t rest h
  have hlow (hd : t.status.done = false) : irq t = false := by simp [irq, hd]
  refine ⟨fun hb hn => ?_, fun w hb hs => hlow ?_, fun v hv hs => hlow ?_, fun written hs => hlow ?_⟩
  · obtain ⟨-, hdone, -, hctrl⟩ := flags_of_completes h ⟨hb, rest, hn⟩
    simp [irq, hdone, hctrl]
  · obtain ⟨-, hdone, -⟩ := flags_of_accepts h ⟨hb, _, w, rest, hs, by decide⟩
    exact hdone
  · exact done_of_clears h ⟨_, v, rest, hs, by decide, hv⟩
  · obtain ⟨-, hdone, -⟩ := flags_of_resetActs h ⟨written, rest, hs⟩
    exact hdone

/-- Settles O51: what each listed event does, then what a change of each bit says of the event. -/
theorem onlyListedEventsChangeBusyDoneAndBwerr : Obligations.OnlyListedEventsChangeBusyDoneAndBwerr := by
  intro s t h
  refine ⟨flags_of_accepts h, fun hc => ?_, flags_of_resetActs h, done_of_clears h, bwerr_of_clears h,
    bwerr_of_loses h, event_of_busy_change h, event_of_done_change h, event_of_bwerr_change h⟩
  obtain ⟨hbusy, hdone, hbwerr, -⟩ := flags_of_completes h hc
  exact ⟨hbusy, hdone, hbwerr⟩

/-- Settles O52: each piece of state by its own lemma about a step. -/
theorem onlyListedEventsChangeEachPieceOfState : Obligations.OnlyListedEventsChangeEachPieceOfState := by
  intro s t h
  refine ⟨fun hchange => ?_, fun hchange => ?_, fun k hk => event_of_carrier_change h hk, params_of_step h⟩
  · by_contra hn
    obtain ⟨hnc, hnr⟩ := not_or.1 hn
    obtain ⟨hlen, hresult, hcursor, hout⟩ := outputs_of_step h hnc hnr
    simp [hlen, hresult, hcursor, hout] at hchange
  · by_contra hn
    obtain ⟨hnw, hnr⟩ := not_or.1 hn
    obtain ⟨hregs, hpwd, hmsg⟩ := operands_of_step h hnw hnr
    simp [hregs, hpwd, hmsg] at hchange

/-- After reset STATUS reads 0: BUSY, every outcome bit, BWERR and ERRCODE are (10_state.md R45). -/
theorem statusWord_resetWith (p : Params) : statusWord (State.resetWith p) = 0#32 := by
  simp [statusWord, State.resetWith, busy]

/-- After reset CTRL reads 1: CIPHER_EN alone is set (10_state.md R45). -/
theorem ctrlWord_resetWith (p : Params) : ctrlWord (State.resetWith p).ctrl = 1#32 := by
  simp [ctrlWord, State.resetWith, BitOrder.toBool]

/-- Settles O43: every register of `State.resetWith` is the table's, and no buffer entry or carrier byte is listed. -/
theorem resetValuesAsTheTableSays : Obligations.ResetValuesAsTheTableSays := fun p =>
  ⟨seq_resetWith p, busy_resetWith p, rfl, rfl, ctrlWord_resetWith p, statusWord_resetWith p, rfl, rfl, rfl, rfl,
    rfl, rfl, rfl, rfl, rfl, rfl, rfl, fun _ => ⟨rfl, rfl, rfl, rfl⟩⟩

end Sys2Proof.Machine
end

section
/-! The register port by word address (20_memory.md): what the words of CTRL and STATUS are as numbers, which target an
address of each region names, and what a host read or a host write of it does. -/

namespace Sys2Proof.Machine

/-! ### The words of CTRL and STATUS -/

/-- Two bit fields side by side, as a number. -/
theorem toNat_append_eq {m n : Nat} (x : BitVec m) (y : BitVec n) : (x ++ y).toNat = 2 ^ n * x.toNat + y.toNat := by
  rw [BitVec.toNat_append, ← Nat.shiftLeft_add_eq_or_of_lt y.isLt, Nat.shiftLeft_eq, Nat.mul_comm]

/-- The bit positions of 10_state.md R22. -/
theorem toNat_ctrlWord (c : Ctrl) :
    (ctrlWord c).toNat = c.cipherEn.toNat + 2 * c.bitOrder.toBool.toNat + 4 * c.irqEn.toNat := by
  simp only [ctrlWord, toNat_append_eq, BitVec.toNat_ofBool, BitVec.toNat_zero]
  omega

/-- The bit positions of 10_state.md R24. -/
theorem toNat_statusWord (s : State) :
    (statusWord s).toNat =
      (busy s).toNat + 2 * s.status.done.toNat + 4 * s.status.err.toNat + 8 * s.status.term.toNat +
        16 * s.status.capOk.toNat + 32 * s.status.bwerr.toNat + 256 * s.status.errcode.toNat := by
  simp only [statusWord, toNat_append_eq, BitVec.toNat_ofBool, BitVec.toNat_zero]
  omega

/-- While a command is in progress STATUS reads BUSY and BWERR alone (20_memory.md R83). -/
theorem statusWord_in_progress {s : State} (hb : busy s = true) (hclear : outcomeClear s.status) :
    statusWord s = BitVec.ofNat 32 (1 + 32 * s.status.bwerr.toNat) := by
  obtain ⟨hdone, herr, hterm, hcapOk, herrcode⟩ := hclear
  apply BitVec.eq_of_toNat_eq
  rw [toNat_statusWord, hb, hdone, herr, hterm, hcapOk, herrcode]
  cases s.status.bwerr <;> rfl

/-! ### Which target an address names -/

section Target
variable (p : Params) {a : PortAddr}

/-- The reserved word between CURSOR and CAR_MAX (20_memory.md R62). -/
theorem regOffset_ne_reserved (r : Reg) : regOffset r ≠ 0x02C := by cases r <;> decide

/-- The reserved words below the windows (20_memory.md R65). -/
theorem target_reserved
    (h : 4 * (a.toNat / 4) = 0x02C ∨ (0x040 ≤ 4 * (a.toNat / 4) ∧ 4 * (a.toNat / 4) < 0x010000)) :
    target p a = .unmapped := by
  refine target_gap p (fun r => ?_) (by omega)
  have hne := regOffset_ne_reserved r
  have hlt := regOffset_lt r
  omega

/-- The words between the PWD and the MSG window (20_memory.md R65). -/
theorem target_between_windows (h : 0x020000 ≤ 4 * (a.toNat / 4)) (h' : 4 * (a.toNat / 4) < 0x100000) :
    target p a = .unmapped := by
  refine target_gap p (fun r => ?_) (.inr ⟨h, h'⟩)
  have hlt := regOffset_lt r
  omega

theorem target_pwd_region (h : 0x010000 ≤ 4 * (a.toNat / 4)) (h' : 4 * (a.toNat / 4) < 0x020000) :
    target p a = if a.toNat / 4 - 0x4000 < p.pwdMax then .pwd (a.toNat / 4 - 0x4000) else .unmapped :=
  target_pwd_window p (by omega) (by omega)

theorem target_msg_region (h : 0x100000 ≤ 4 * (a.toNat / 4)) (h' : 4 * (a.toNat / 4) < 0x200000) :
    target p a = if a.toNat / 4 - 0x40000 < p.msgMax then .msg (a.toNat / 4 - 0x40000) else .unmapped :=
  target_msg_window p (by omega) (by omega)

theorem target_out_region (h : 0x200000 ≤ 4 * (a.toNat / 4)) :
    target p a = if a.toNat / 4 - 0x80000 < p.outMax then .out (a.toNat / 4 - 0x80000) else .unmapped :=
  target_out_window p (by omega)

/-- From the PWD window's first word to the MSG window's last, every word is an input's entry or unmapped. -/
theorem target_input_regions (h : 0x010000 ≤ 4 * (a.toNat / 4)) (h' : 4 * (a.toNat / 4) < 0x200000) :
    (∃ i, target p a = .pwd i) ∨ (∃ i, target p a = .msg i) ∨ target p a = .unmapped := by
  have hregion : 4 * (a.toNat / 4) < 0x020000 ∨ 0x020000 ≤ 4 * (a.toNat / 4) ∧ 4 * (a.toNat / 4) < 0x100000 ∨
      0x100000 ≤ 4 * (a.toNat / 4) := by omega
  rcases hregion with hpwd | ⟨hlow, hhigh⟩ | hmsg
  · rw [target_pwd_region p h hpwd]
    split
    · exact .inl ⟨_, rfl⟩
    · exact .inr (.inr rfl)
  · exact .inr (.inr (target_between_windows p hlow hhigh))
  · rw [target_msg_region p hmsg h']
    split
    · exact .inr (.inl ⟨_, rfl⟩)
    · exact .inr (.inr rfl)

/-- The unmapped words of 20_memory.md R65, all of them. -/
theorem target_unmapped (hp : p.legal)
    (h : 4 * (a.toNat / 4) = 0x02C ∨ (0x040 ≤ 4 * (a.toNat / 4) ∧ 4 * (a.toNat / 4) < 0x010000) ∨
      (0x010000 + 4 * p.pwdMax ≤ 4 * (a.toNat / 4) ∧ 4 * (a.toNat / 4) < 0x100000) ∨
      (0x100000 + 4 * p.msgMax ≤ 4 * (a.toNat / 4) ∧ 4 * (a.toNat / 4) < 0x200000) ∨
      0x200000 + 4 * p.outMax ≤ 4 * (a.toNat / 4)) :
    target p a = .unmapped := by
  rcases h with h | h | ⟨hlow, hhigh⟩ | ⟨hlow, hhigh⟩ | hlow
  · exact target_reserved p (.inl h)
  · exact target_reserved p (.inr h)
  · by_cases hwindow : 4 * (a.toNat / 4) < 0x020000
    · rw [target_pwd_region p (by omega) hwindow, if_neg (by omega)]
    · exact target_between_windows p (by omega) hhigh
  · rw [target_msg_region p (by omega) hhigh, if_neg (by omega)]
  · rw [target_out_region p (by omega), if_neg (by omega)]

end Target

section Entries
variable {p : Params} (hp : p.legal) {i : Nat}
include hp

/-- Legal parameters put every PWD entry in its window (00_scope.md R6). -/
theorem target_pwd_entry (hi : i < p.pwdMax) : target p (BitVec.ofNat 22 (0x010000 + 4 * i)) = .pwd i := by
  obtain ⟨⟨-, hmax⟩, -⟩ := hp
  have haddr : (BitVec.ofNat 22 (0x010000 + 4 * i)).toNat = 0x010000 + 4 * i := toNat_windowAddr (by omega)
  rw [target_pwd_window p (i := i) (by omega) (by omega), if_pos hi]

/-- Legal parameters put every MSG entry in its window (00_scope.md R7). -/
theorem target_msg_entry (hi : i < p.msgMax) : target p (BitVec.ofNat 22 (0x100000 + 4 * i)) = .msg i := by
  obtain ⟨-, hmax, -⟩ := hp
  have haddr : (BitVec.ofNat 22 (0x100000 + 4 * i)).toNat = 0x100000 + 4 * i := toNat_windowAddr (by omega)
  rw [target_msg_window p (i := i) (by omega) (by omega), if_pos hi]

/-- Legal parameters put every OUT entry in its window (00_scope.md R9). -/
theorem target_out_entry (hi : i < p.outMax) : target p (BitVec.ofNat 22 (0x200000 + 4 * i)) = .out i := by
  obtain ⟨-, -, -, -, -, hmax⟩ := hp
  have haddr : (BitVec.ofNat 22 (0x200000 + 4 * i)).toNat = 0x200000 + 4 * i := toNat_windowAddr (by omega)
  rw [target_out_window p (i := i) (by omega), if_pos hi]

end Entries

/-! ### Host reads -/

section Reads
variable {s : State} {a : PortAddr} {rest : List Turn}

theorem drawsValue_of_idle (hb : busy s = false) (a : PortAddr) : drawsValue s a = false := by
  simp [drawsValue, hb]

theorem drawsValue_of_not_output (h : isOutput (target s.params a) = false) : drawsValue s a = false := by
  simp [drawsValue, h]

theorem drawsValue_of_output (hb : busy s = true) (h : isOutput (target s.params a) = true) :
    drawsValue s a = true := by
  simp [drawsValue, hb, h]

/-- A read that draws nothing returns the value at the target. -/
theorem readValue_of_not_draws (h : drawsValue s a = false) : readValue s a = targetValue s (target s.params a) := by
  simp [readValue, h]

/-- While IDLE every read returns the value at the target. -/
theorem readValue_idle (hb : busy s = false) (a : PortAddr) : readValue s a = targetValue s (target s.params a) :=
  readValue_of_not_draws (drawsValue_of_idle hb a)

theorem readValue_reg (hb : busy s = false) {r : Reg} (ha : 4 * (a.toNat / 4) = regOffset r) :
    readValue s a = regValue s r := by
  rw [readValue_idle hb, target_of_offset _ ha, targetValue]

/-- A read that draws nothing only records what it returned. -/
theorem hostRead_of_not_draws (h : drawsValue s a = false) :
    hostRead a s = { s with reads := s.reads ++ [readValue s a] } := by
  simp [hostRead, h]

/-- A read that draws returns the next unspecified value (20_memory.md R83). -/
theorem hostRead_of_draws (h : drawsValue s a = true) :
    hostRead a s = { s with reads := s.reads ++ [Config.busyRead s.draws], draws := s.draws + 1 } := by
  simp [hostRead, readValue, h]

theorem step_hostRead (hs : s.schedule = .hostRead a :: rest) :
    step s = .next (hostRead a { s with schedule := rest }) := step_turn hs

theorem step_hostRead_of_not_draws (h : drawsValue s a = false) (hs : s.schedule = .hostRead a :: rest) :
    step s = .next { s with schedule := rest, reads := s.reads ++ [readValue s a] } := by
  rw [step_hostRead hs, hostRead_of_not_draws (s := { s with schedule := rest }) h]
  rfl

/-- A read of anything but an output returns the value at its target, BUSY or not (20_memory.md R83). -/
theorem step_hostRead_of_not_output (h : isOutput (target s.params a) = false)
    (hs : s.schedule = .hostRead a :: rest) :
    step s = .next { s with schedule := rest, reads := s.reads ++ [targetValue s (target s.params a)] } := by
  have hdraws := drawsValue_of_not_output h
  rw [step_hostRead_of_not_draws hdraws hs, readValue_of_not_draws hdraws]

/-- While BUSY a read of an output returns an unspecified value (20_memory.md R83). -/
theorem step_hostRead_of_output (hb : busy s = true) (h : isOutput (target s.params a) = true)
    (hs : s.schedule = .hostRead a :: rest) :
    step s = .next { s with
      schedule := rest
      reads := s.reads ++ [Config.busyRead s.draws]
      draws := s.draws + 1 } := by
  rw [step_hostRead hs, hostRead_of_draws (s := { s with schedule := rest }) (drawsValue_of_output hb h)]

/-- The sequencer's state shows in STATUS alone. -/
theorem targetValue_seq {t : Target} (ht : t ≠ .reg .status) (q : Sequencer) :
    targetValue { s with seq := q } t = targetValue s t := by
  cases t with
  | reg r =>
    cases r with
    | status => exact absurd rfl ht
    | id | ctrl | cmd | width | height | pwdLen | msgLen | outLen | result | cursor | carMax | msgMax | pwdMax
    | outMax => rfl
  | pwd i | msg i | out i | unmapped => rfl

/-- The control registers that hold no output and are not STATUS, and that a read returns (20_memory.md R62). -/
def stableRegs : List Reg := [.id, .ctrl, .width, .height, .pwdLen, .msgLen, .carMax, .msgMax, .pwdMax, .outMax]

theorem stable_of_mem_stableRegs :
    ∀ r ∈ stableRegs, isOutput (.reg r) = false ∧ Target.reg r ≠ .reg .status := by decide

/-- A read of anything but an output or STATUS returns what it would while IDLE (20_memory.md R83). -/
theorem step_hostRead_of_stable (h : isOutput (target s.params a) = false) (ht : target s.params a ≠ .reg .status)
    (hs : s.schedule = .hostRead a :: rest) :
    step s = .next { s with schedule := rest, reads := s.reads ++ [readValue { s with seq := .idle } a] } := by
  have hidle : readValue { s with seq := .idle } a = targetValue s (target s.params a) :=
    (readValue_idle (s := { s with seq := .idle }) rfl a).trans (targetValue_seq ht .idle)
  rw [step_hostRead_of_not_output h hs, hidle]

end Reads

/-! ### Host writes -/

section Writes
variable {s : State} {a : PortAddr} {v : Word} {rest : List Turn}

/-- No host write touches the schedule. -/
theorem hostWrite_schedule (a : PortAddr) (v : Word) (s : State) : (hostWrite a v s).schedule = s.schedule := by
  rcases hostWrite_cases a v s with ⟨-, h⟩ | ⟨-, h⟩ | ⟨-, h⟩
  · rw [h]
  · rw [h]
  · rcases storeWord_cases (target s.params a) v s with
      hs | ⟨-, hs⟩ | ⟨_, _, _, _, _, hs⟩ | ⟨_, -, hs⟩ | ⟨_, -, hs⟩ <;> simp [h, hs]

/-- A write while IDLE, to a target other than STATUS, stores at its target. -/
theorem step_store {t : Target} (hb : busy s = false) (ht : target s.params a = t) (hne : t ≠ .reg .status)
    (hs : s.schedule = .hostWrite a v :: rest) : step s = .next (storeWord t v { s with schedule := rest }) := by
  have hidle : busy { s with schedule := rest } = false := hb
  rw [step_hostWrite hs, hostWrite, hidle, ht, if_neg hne, if_neg Bool.false_ne_true]

/-- The control registers that only the block writes (20_memory.md R62). -/
def readOnlyRegs : List Reg := [.id, .outLen, .result, .cursor, .carMax, .msgMax, .pwdMax, .outMax]

/-- The targets a host write while IDLE does not store to (20_memory.md R64 to R66). -/
def Target.ignoresWrites : Target → Prop
  | .reg r => r ∈ readOnlyRegs
  | .out _ => True
  | .unmapped => True
  | .pwd _ => False
  | .msg _ => False

theorem storeWord_of_ignoresWrites {t : Target} (ht : t.ignoresWrites) (v : Word) (s : State) :
    storeWord t v s = s := by
  cases t with
  | reg r =>
    have hr : r ∈ readOnlyRegs := ht
    cases r with
    | id | status | outLen | result | cursor | carMax | msgMax | pwdMax | outMax => rfl
    | ctrl | cmd | width | height | pwdLen | msgLen => simp [readOnlyRegs] at hr
  | out i | unmapped => rfl
  | pwd i | msg i => exact ht.elim

/-- While IDLE a write to such a target is ignored (20_memory.md R64 to R66). -/
theorem step_write_ignored (hb : busy s = false) (ht : (target s.params a).ignoresWrites)
    (hs : s.schedule = .hostWrite a v :: rest) : step s = .next { s with schedule := rest } := by
  have hne : target s.params a ≠ .reg .status := fun h => by
    rw [h] at ht
    exact absurd ht (by decide : Reg.status ∉ readOnlyRegs)
  rw [step_store hb rfl hne hs, storeWord_of_ignoresWrites ht]

/-- One store to an entry of PWD or MSG, as seen at every target (20_memory.md R64). -/
theorem targetValue_storeWord {t : Target} (ht : (∃ i, t = .pwd i) ∨ ∃ i, t = .msg i) (v : Word) (s : State)
    (u : Target) :
    targetValue (storeWord t v s) u = if u = t then (v.setWidth 8).setWidth 32 else targetValue s u := by
  rcases ht with ⟨i, rfl⟩ | ⟨i, rfl⟩
  · cases u with
    | reg r => cases r <;> rfl
    | pwd j => by_cases hj : j = i <;> simp [targetValue, storeWord, pwdByte, Memory.read?_write, hj]
    | msg j | out j | unmapped => rfl
  · cases u with
    | reg r => cases r <;> rfl
    | msg j => by_cases hj : j = i <;> simp [targetValue, storeWord, msgByte, Memory.read?_write, hj]
    | pwd j | out j | unmapped => rfl

/-- One store to an entry of PWD or MSG while IDLE, as seen by every read. -/
theorem readValue_storeWord {t : Target} (ht : (∃ i, t = .pwd i) ∨ ∃ i, t = .msg i) (hb : busy s = false)
    (v : Word) (a : PortAddr) :
    readValue (storeWord t v s) a =
      if target s.params a = t then (v.setWidth 8).setWidth 32 else readValue s a := by
  have hidle : busy (storeWord t v s) = false := by rcases ht with ⟨i, rfl⟩ | ⟨i, rfl⟩ <;> exact hb
  have hparams : (storeWord t v s).params = s.params := by rcases ht with ⟨i, rfl⟩ | ⟨i, rfl⟩ <;> rfl
  rw [readValue_idle hidle, hparams, targetValue_storeWord ht, readValue_idle hb]

end Writes

/-! ### The adapter's accesses -/

section Adapter
variable {s : State} (k : Nat) (v : Byte)

theorem carrierLoad_busy (hb : busy s = true) : carrierLoad k v s = .fault .hostCarrierConflict := if_pos hb

theorem carrierSave_busy (hb : busy s = true) : carrierSave k s = .fault .hostCarrierConflict := if_pos hb

variable {k} (hb : busy s = false) (hk : k < s.params.carMax)
include hb hk

theorem carrierLoad_idle : carrierLoad k v s = .next { s with carrier := csWrite s.carrier k v } := by
  rw [carrierLoad, hb, if_neg Bool.false_ne_true, if_pos hk]

theorem carrierSave_idle : carrierSave k s = .next { s with saved := s.saved ++ [carrierByte s k] } := by
  rw [carrierSave, hb, if_neg Bool.false_ne_true, if_pos hk]

end Adapter

end Sys2Proof.Machine
end

section
/-! The statements about the register port and the adapter (20_memory.md), each from the lemmas above. -/

namespace Sys2Proof.Machine

/-- Settles O34: each address is a register's offset, or the reserved word. -/
theorem registerReadsAsTheMapSays : Obligations.RegisterReadsAsTheMapSays := by
  intro s hb
  have hread (r : Reg) : readValue s (regAddr r) = regValue s r := readValue_reg hb (by cases r <;> decide)
  have hctrl : (readValue s 0x004#22).toNat = (ctrlWord s.ctrl).toNat := congrArg BitVec.toNat (hread .ctrl)
  have hstatus : (readValue s 0x00C#22).toNat = (statusWord s).toNat := congrArg BitVec.toNat (hread .status)
  have hreserved : readValue s 0x02C#22 = 0#32 := by
    rw [readValue_idle hb, target_reserved _ (.inl (by decide)), targetValue]
  refine ⟨hread .id, by rw [hctrl, toNat_ctrlWord], hread .cmd, ?_, hread .width, hread .height, hread .pwdLen,
    hread .msgLen, hread .outLen, hread .result, hread .cursor, hreserved, hread .carMax, hread .msgMax, hread .pwdMax,
    hread .outMax⟩
  rw [hstatus, toNat_statusWord, hb, Bool.toNat_false, Nat.zero_add]

/-- Settles O35: no port access has a fault, and while IDLE a read draws nothing and leaves what it read. -/
theorem portAccessesCompleteAndReadsChangeNothing : Obligations.PortAccessesCompleteAndReadsChangeNothing := by
  intro s a rest
  refine ⟨fun v hs => ⟨_, step_hostWrite hs, hostWrite_schedule _ _ _⟩, fun hs => ⟨_, _, step_hostRead hs⟩,
    fun hb hs => ⟨readValue s a, ?_⟩⟩
  have hfirst := step_hostRead_of_not_draws (drawsValue_of_idle hb a) hs
  have hsecond := step_hostRead_of_not_draws (rest := rest) (drawsValue_of_idle
    (s := { s with schedule := .hostRead a :: rest, reads := s.reads ++ [readValue s a] }) hb a) rfl
  rw [run_succ 1 hfirst, run_succ 0 hsecond, run_zero, List.append_assoc]
  rfl

/-- Settles O37: legal parameters put each entry in its window, and a store shows at its own target only. -/
theorem bufferWindowsReadAndWriteOneByte : Obligations.BufferWindowsReadAndWriteOneByte := by
  intro s i v rest hp hb
  have hidle : busy { s with schedule := rest } = false := hb
  refine ⟨fun hi => ?_, fun hi => ?_, fun hi => ?_⟩
  · have ht := target_pwd_entry hp hi
    have hseen := readValue_storeWord (.inl ⟨i, rfl⟩) hidle v
    exact ⟨by rw [readValue_idle hb, ht, targetValue], fun hs =>
      ⟨_, step_store hb ht nofun hs, rfl, (hseen _).trans (if_pos ht), fun a ha =>
        (hseen a).trans (if_neg fun h => ha (target_pwd_inv h).1)⟩⟩
  · have ht := target_msg_entry hp hi
    have hseen := readValue_storeWord (.inr ⟨i, rfl⟩) hidle v
    exact ⟨by rw [readValue_idle hb, ht, targetValue], fun hs =>
      ⟨_, step_store hb ht nofun hs, rfl, (hseen _).trans (if_pos ht), fun a ha =>
        (hseen a).trans (if_neg fun h => ha (target_msg_inv h).1)⟩⟩
  · have ht := target_out_entry hp hi
    exact ⟨by rw [readValue_idle hb, ht, targetValue], step_write_ignored hb (by rw [ht]; trivial)⟩

/-- Settles O38: every address listed names no target, and STATUS is not among them. -/
theorem unmappedWordsReadZeroAndIgnoreWrites : Obligations.UnmappedWordsReadZeroAndIgnoreWrites := by
  intro s a v rest hp _ hregion
  have ht : target s.params a = .unmapped := target_unmapped s.params hp hregion
  refine ⟨fun hs => ?_, fun hs => ?_⟩
  · rw [step_hostRead_of_not_output (by rw [ht]; rfl) hs, ht, targetValue]
  · cases hb : busy s with
    | false => exact step_write_ignored hb (by rw [ht]; trivial) hs
    | true =>
      have h3 : a.toNat / 4 ≠ 3 := fun h => by simp [(target_eq_status_iff s.params a).2 h] at ht
      rw [step_hostWrite hs, hostWrite_lost (s := { s with schedule := rest }) hb h3]
      rfl

/-- Settles O39: the listed registers are the read-only ones, and a word of the OUT window is an entry or unmapped. -/
theorem readOnlyWordsIgnoreWrites : Obligations.ReadOnlyWordsIgnoreWrites := by
  intro s a v rest hb hregion hs
  refine step_write_ignored hb ?_ hs
  rcases hregion with hreg | hwindow
  · obtain ⟨r, hr, hoff⟩ := List.mem_map.1 (show 4 * (a.toNat / 4) ∈ readOnlyRegs.map regOffset from hreg)
    rw [target_of_offset s.params hoff.symm]
    exact hr
  · rw [target_out_region s.params (by omega)]
    split <;> trivial

/-- Settles O40: an invariant BUSY state has clear outcome bits, so STATUS is BUSY and BWERR; every other word is an
output or stable. -/
theorem readsWhileBusy : Obligations.ReadsWhileBusy := by
  intro s a rest hinv hb hs
  refine ⟨fun ha => ?_, fun ha => ?_, fun ha => ?_, fun ha => step_hostRead_of_output hb ?_ hs⟩
  · have ht : target s.params a = .reg .status := target_of_offset s.params ha
    rw [step_hostRead_of_not_output (by rw [ht]; rfl) hs, ht, targetValue, regValue,
      statusWord_in_progress hb (hinv.busy_clear hb)]
  · have ht : target s.params a = .reg .cmd := target_of_offset s.params ha
    rw [step_hostRead_of_not_output (by rw [ht]; rfl) hs, ht, targetValue, regValue]
  · have hstable : isOutput (target s.params a) = false ∧ target s.params a ≠ .reg .status := by
      rcases ha with hreg | ⟨hlow, hhigh⟩
      · obtain ⟨r, hr, hoff⟩ := List.mem_map.1 (show 4 * (a.toNat / 4) ∈ stableRegs.map regOffset from hreg)
        rw [target_of_offset s.params hoff.symm]
        exact stable_of_mem_stableRegs r hr
      · rcases target_input_regions s.params hlow hhigh with ⟨i, ht⟩ | ⟨i, ht⟩ | ht <;> simp [ht, isOutput]
    exact step_hostRead_of_stable hstable.1 hstable.2 hs
  · rcases ha with ha | ha | ha | ⟨hlow, hhigh⟩
    · rw [target_of_offset s.params (r := .outLen) ha, isOutput]
    · rw [target_of_offset s.params (r := .result) ha, isOutput]
    · rw [target_of_offset s.params (r := .cursor) ha, isOutput]
    · rw [target_out_region s.params hlow, if_pos (by omega), isOutput]

/-- Settles O46: the BUSY check comes first in both accesses. -/
theorem carrierAccessWhileBusyFaults : Obligations.CarrierAccessWhileBusyFaults := by
  rintro s k v rest hb (hs | hs)
  · rw [step_turn hs, takeTurn, carrierLoad_busy (s := { s with schedule := rest }) k v hb]
  · rw [step_turn hs, takeTurn, carrierSave_busy (s := { s with schedule := rest }) k hb]

/-- Settles O47: with both checks passed a load is one write of the Carrier Store, and a save one read. -/
theorem adapterLoadsAndSavesOneByte : Obligations.AdapterLoadsAndSavesOneByte := by
  intro s k v rest hb hk
  refine ⟨fun hs => ⟨{ s with schedule := rest, carrier := csWrite s.carrier k v }, ?_, rfl, ?_, fun j hj => ?_⟩,
    fun hs => ?_⟩
  · rw [step_turn hs, takeTurn, carrierLoad_idle (s := { s with schedule := rest }) v hb hk]
  · exact (csRead_csWrite _ _ _ _).trans (if_pos rfl)
  · exact (csRead_csWrite _ _ _ _).trans (if_neg hj)
  · rw [step_turn hs, takeTurn, carrierSave_idle (s := { s with schedule := rest }) hb hk, carrierByte, carrierByte]

end Sys2Proof.Machine
end

section
/-! A command sees WIDTH and HEIGHT only through their product (20_memory.md R72, 43_capacity.md R170): each thing that a
command computes, on the same state with another carrier size. -/

namespace Sys2Proof.Machine

/-- The sequencer with another carrier size among the operands it holds. -/
def Sequencer.resized (w h : Word) : Sequencer → Sequencer
  | .idle => .idle
  | .busy word held => .busy word { held with width := w, height := h }

/-- The state with another carrier size, in the registers and in the copies held since accept alike. -/
def resized (w h : Word) (s : State) : State :=
  { s with width := w, height := h, seq := s.seq.resized w h }

section Resized
variable (w h : Word) (s : State)

@[simp] theorem resized_params : (resized w h s).params = s.params := rfl

@[simp] theorem operands_resized : operands (resized w h s) = { operands s with width := w, height := h } := by
  cases hseq : s.seq <;> simp [operands, resized, Sequencer.resized, operandRegisters, hseq]

@[simp] theorem passwordLength_resized : passwordLength (resized w h s) = passwordLength s := by simp [passwordLength]

@[simp] theorem messageLength_resized : messageLength (resized w h s) = messageLength s := by simp [messageLength]

@[simp] theorem framedLength_resized : framedLength (resized w h s) = framedLength s := by simp [framedLength]

@[simp] theorem framedBits_resized : framedBits (resized w h s) = framedBits s := by simp [framedBits]

@[simp] theorem maskByte_resized : maskByte (resized w h s) = maskByte s := by
  funext i
  simp only [maskByte, operands_resized, passwordLength_resized]
  rfl

@[simp] theorem framedByte_resized : framedByte (resized w h s) = framedByte s := by
  funext i
  simp only [framedByte, messageLength_resized, maskByte_resized]
  rfl

@[simp] theorem unframedByte_resized : unframedByte (resized w h s) = unframedByte s := by
  funext i
  simp only [unframedByte, maskByte_resized]
  rfl

@[simp] theorem streamBit_resized : streamBit (resized w h s) = streamBit s := by
  funext j
  simp only [streamBit, operands_resized, framedByte_resized]

@[simp] theorem packedCarrier_resized : packedCarrier (resized w h s) = packedCarrier s := by
  simp only [packedCarrier, framedBits_resized, streamBit_resized]
  rfl

variable {w h s} (hsize : w.toNat * h.toNat = capacity s)
include hsize

theorem capacity_resized : capacity (resized w h s) = capacity s := by
  rw [← hsize, capacity, operands_resized]

theorem scanCarrier_resized : scanCarrier (resized w h s) = scanCarrier s := by
  simp only [scanCarrier, operands_resized, capacity_resized hsize]
  rfl

theorem valid_resized (i : Instr) : valid i (resized w h s) = valid i s := by
  cases i <;> simp [valid, capacity_resized hsize]

theorem commandError_resized (i : Instr) : commandError i (resized w h s) = commandError i s := by
  simp [commandError, valid_resized hsize, capacity_resized hsize]

theorem performed_resized (i : Instr) : performed i (resized w h s) = resized w h (performed i s) := by
  cases i with
  | nop | chkcap => rfl
  | hide => simp only [performed, packedCarrier_resized, framedBits_resized]; rfl
  | showCmd => simp only [performed, scanCarrier_resized hsize, maskByte_resized]; rfl
  | maskat k => simp only [performed, maskByte_resized]; rfl
  | frame => simp only [performed, framedByte_resized, framedLength_resized]; rfl
  | unframe => simp only [performed, unframedByte_resized, messageLength_resized]; rfl

/-- The end of a command leaves no held copy, so the other size stays in the registers alone. -/
theorem ended_resized (i : Instr) : ended i (resized w h s) = { ended i s with width := w, height := h } := by
  rw [ended, ended, commandError_resized hsize]
  cases commandError i s with
  | some e => rfl
  | none =>
    show finish (performed i (resized w h s)) = _
    rw [performed_resized hsize]
    rfl

end Resized

/-- Settles O31: the other state is `resized`, and no part of a command looks at the size but through the product. -/
theorem onlyTheProductOfWidthAndHeightMatters : Obligations.OnlyTheProductOfWidthAndHeightMatters := by
  intro i s t word held w h hseq hsize ht
  have hother : { s with width := w, height := h, seq := .busy word { held with width := w, height := h } } =
      resized w h s := by rw [resized, hseq, Sequencer.resized]
  have hcap : w.toNat * h.toNat = capacity s := by rw [capacity, operands_of_seq_busy hseq, hsize]
  rw [exec_next_iff] at ht
  rw [hother, exec_eq, ended_resized hcap, ht]

end Sys2Proof.Machine
end

section
/-! The command words (30_encoding.md section 2): when a word decodes, said once from its two fields, and a command's
word as a number. -/

namespace Sys2Proof.Machine

@[simp] theorem opField_encode (i : Instr) : opField (encode i) = opcode i :=
  (Laws.EncodedFields.fields_of_append _ _).1

@[simp] theorem immField_encode (i : Instr) : immField (encode i) = operandField i :=
  (Laws.EncodedFields.fields_of_append _ _).2

/-- `IMM24` above `OP`, as a number (30_encoding.md R91). -/
theorem toNat_encode (i : Instr) : (encode i).toNat = 256 * (operandField i).toNat + (opcode i).toNat :=
  toNat_append_eq _ _

/-- The word of `cmd MASKAT` as 30_encoding.md R99 writes it; both sides drop an index's bits from 24 on. -/
theorem encode_maskat (k : Nat) : encode (.maskat k) = BitVec.ofNat 32 (k <<< 8 ||| 0x04) := by
  apply BitVec.eq_of_toNat_eq
  rw [toNat_encode, operandField, opcode, ← Nat.shiftLeft_add_eq_or_of_lt (by decide), Nat.shiftLeft_eq]
  simp only [BitVec.toNat_ofNat]
  omega

/-- Everything that decodes (30_encoding.md R96): MASKAT's opcode with any operand, or a plain opcode with none. -/
theorem decode_eq_ok_iff {w : Word} {i : Instr} :
    decode w = .ok i ↔
      (opField w = 0x04#8 ∧ i = .maskat (immField w).toNat) ∨
      (plainCommand (opField w) = some i ∧ immField w = 0#24) := by
  by_cases hop : opField w = 0x04#8
  · have hplain : plainCommand 0x04#8 = none := rfl
    simp [decode, hop, hplain, eq_comm]
  · cases hplain : plainCommand (opField w) with
    | none => simp [decode, hop, hplain]
    | some j => by_cases himm : immField w = 0#24 <;> simp [decode, hop, hplain, himm]

/-- The rows of the opcode table that take no operand (30_encoding.md R93), read from the opcode. -/
theorem plain_of_plainCommand {op : BitVec 8} {i : Instr} (h : plainCommand op = some i) :
    i.wellFormed = true ∧ operandField i = 0#24 ∧ opcode i = op := by
  unfold plainCommand at h
  split_ifs at h with h0 h1 h2 h3 h5 h6 <;> cases h
  · exact ⟨rfl, rfl, h0.symm⟩
  · exact ⟨rfl, rfl, h1.symm⟩
  · exact ⟨rfl, rfl, h2.symm⟩
  · exact ⟨rfl, rfl, h3.symm⟩
  · exact ⟨rfl, rfl, h5.symm⟩
  · exact ⟨rfl, rfl, h6.symm⟩

/-- Settles O2: the fields of the word are the command's, and those are what the decoder asks of it; a well-formed
index survives its 24 bits. -/
theorem decodeOfEncodeIsTheCommand : Obligations.DecodeOfEncodeIsTheCommand := by
  intro i hi
  rw [decode_eq_ok_iff, opField_encode, immField_encode]
  cases i with
  | maskat k =>
    have hk : k < 2 ^ 24 := of_decide_eq_true hi
    exact .inl ⟨rfl, by rw [operandField, BitVec.toNat_ofNat, Nat.mod_eq_of_lt hk]⟩
  | nop | hide | showCmd | chkcap | frame | unframe => exact .inr ⟨rfl, rfl⟩

/-- Settles O3: either way to decode fixes both fields, and the word is its fields put together. -/
theorem decodedWordIsItsCommandsWord : Obligations.DecodedWordIsItsCommandsWord := by
  intro w i h
  rcases decode_eq_ok_iff.1 h with ⟨hop, rfl⟩ | ⟨hplain, himm⟩
  · refine ⟨decide_eq_true (immField w).isLt, ?_⟩
    rw [encode, operandField, opcode, BitVec.ofNat_toNat, BitVec.setWidth_eq, ← hop, immField_append_opField]
  · obtain ⟨hwf, hoperand, hopcode⟩ := plain_of_plainCommand hplain
    exact ⟨hwf, by rw [encode, hoperand, hopcode, ← himm, immField_append_opField]⟩

/-- A word with the number of a command's word is that word. -/
theorem decode_of_toNat_eq {w : Word} {i : Instr} (hi : i.wellFormed = true) (h : w.toNat = (encode i).toNat) :
    decode w = .ok i := by
  rw [BitVec.eq_of_toNat_eq h, decodeOfEncodeIsTheCommand i hi]

/-- A command's word is MASKAT's by its low byte, or one of the first seven numbers. -/
theorem toNat_encode_cases (i : Instr) : (encode i).toNat % 256 = 4 ∨ (encode i).toNat ≤ 6 := by
  cases i with
  | maskat k => exact .inl (by rw [toNat_encode, opcode]; simp only [BitVec.toNat_ofNat]; omega)
  | nop | hide | showCmd | chkcap | frame | unframe => exact .inr (by decide)

/-- Settles O4: the numbers listed are those of the commands' words, and a word that decodes has one of them. -/
theorem everyWordIsACommandOrIllegal : Obligations.EveryWordIsACommandOrIllegal := by
  intro w
  refine ⟨fun h4 => ?_, decode_of_toNat_eq (i := .nop) rfl, decode_of_toNat_eq (i := .hide) rfl,
    decode_of_toNat_eq (i := .showCmd) rfl, decode_of_toNat_eq (i := .chkcap) rfl, decode_of_toNat_eq (i := .frame) rfl,
    decode_of_toNat_eq (i := .unframe) rfl, fun h4 h6 => ?_⟩
  · have hindex : w.toNat / 256 < 2 ^ 24 := by omega
    refine decode_of_toNat_eq (decide_eq_true hindex) ?_
    rw [toNat_encode, operandField, opcode, BitVec.toNat_ofNat, Nat.mod_eq_of_lt hindex, BitVec.toNat_ofNat]
    omega
  · cases hd : decode w with
    | error e => exact ⟨e, rfl⟩
    | ok i =>
      have hencode := (decodedWordIsItsCommandsWord w i hd).2
      have hcases := toNat_encode_cases i
      rw [hencode] at hcases
      omega

/-- Settles O1: the decoder, run on the twelve words. -/
theorem sampleWordsDecodeAsTheTableSays : Obligations.SampleWordsDecodeAsTheTableSays := by
  unfold Obligations.SampleWordsDecodeAsTheTableSays
  decide

end Sys2Proof.Machine
end

section
/-! Host programs (30_encoding.md section 3): what the pseudo-instructions expand to, and a run of `cmd` and `wait`. -/

namespace Sys2Proof.Machine

/-- Byte `j` of a text goes to the entry `j` after the first (30_encoding.md R99). -/
theorem loadWindow_eq (base : Nat) (bytes : List Byte) (i : Nat) :
    loadWindow base i bytes =
      (List.range bytes.length).map
        (fun j => .hostWrite (windowAddr base (i + j)) ((bytes.getD j 0#8).setWidth 32)) := by
  induction bytes generalizing i with
  | nil => rfl
  | cons b bs ih =>
    have hnext (j : Nat) : i + 1 + j = i + (j + 1) := by omega
    simp [loadWindow, ih, List.range_succ_eq_map, Function.comp_def, hnext]

/-- A text loaded from the window's first entry on. -/
theorem loadWindow_zero (base : Nat) (bytes : List Byte) :
    loadWindow base 0 bytes =
      (List.range bytes.length).map
        (fun j => .hostWrite (BitVec.ofNat 22 (base + 4 * j)) ((bytes.getD j 0#8).setWidth 32)) := by
  simp only [loadWindow_eq, Nat.zero_add, windowAddr]

/-- Settles O42: the plain lines are their words, and `loadWindow` is a map over the text's positions. -/
theorem pseudoInstructionsExpandAsListed : Obligations.PseudoInstructionsExpandAsListed := by
  refine ⟨rfl, rfl, rfl, rfl, fun i _ => ?_, rfl, rfl, rfl, fun bytes => ?_, fun bytes => ?_⟩
  · rw [HostLine.turns, encode_maskat]
    rfl
  · rw [HostLine.turns, loadWindow_zero]
    rfl
  · rw [HostLine.turns, loadWindow_zero]
    rfl

/-- Bit 0 of STATUS is BUSY (10_state.md R24). -/
theorem getLsbD_zero_statusWord (s : State) : (statusWord s).getLsbD 0 = busy s := by
  rw [statusWord, BitVec.getLsbD_append]
  simp

/-- The sequencer's turn runs the command that the held word decodes to (40_command.md R112). -/
theorem step_of_decode {s : State} {w : Word} {held : Operands} {i : Instr} {rest : List Turn}
    (hseq : s.seq = .busy w held) (hd : decode w = .ok i) (hn : sequencerNext s rest) :
    step s = exec i { s with schedule := rest } := by
  rw [step_sequencer hn]
  simp [complete, hseq, hd]

/-- The schedule and what has been read come through a command's completion as they went in. -/
theorem ended_schedule_reads (i : Instr) (s : State) (sc : List Turn) (rd : List Word) :
    ended i { s with schedule := sc, reads := rd } = { ended i s with schedule := sc, reads := rd } := by
  refine (ended_outside i s sc rd s.draws s.status.bwerr s.status.done).trans ?_
  rw [← ended_draws i s, ← ended_bwerr i s]

/-- One read of STATUS records its word, BUSY or not, and changes nothing else. -/
theorem step_readStatus {s : State} {rest : List Turn} (hs : s.schedule = .hostRead (regAddr .status) :: rest) :
    step s = .next { s with schedule := rest, reads := s.reads ++ [statusWord s] } := by
  have ht : target s.params (regAddr .status) = .reg .status := target_of_offset s.params (by decide)
  rw [step_hostRead_of_not_output (by rw [ht]; rfl) hs, ht]
  rfl

/-- A row of polls records the same STATUS word each time. -/
theorem run_polls (k : Nat) (rest : List Turn) (n : Nat) {s : State}
    (hs : s.schedule = List.replicate n (.hostRead (regAddr .status)) ++ rest) :
    Host.Core.run core (n + k) s =
      Host.Core.run core k { s with schedule := rest, reads := s.reads ++ List.replicate n (statusWord s) } := by
  induction n generalizing s with
  | zero =>
    have hrest : s.schedule = rest := hs
    simp [← hrest]
  | succ n ih =>
    have hfirst : s.schedule =
        .hostRead (regAddr .status) :: (List.replicate n (.hostRead (regAddr .status)) ++ rest) := hs
    rw [Nat.add_right_comm, run_succ _ (step_readStatus hfirst), ih rfl, List.append_assoc]
    rfl

section Wait
variable {s : State} {w : Word} {held : Operands} {i : Instr} (hseq : s.seq = .busy w held) (hd : decode w = .ok i)
  (hs : s.schedule = [])
include hseq hd hs

/-- The last two turns of a `wait`, whatever the polls before them read: the command's end and the read that sees it. -/
theorem run_completion (polled : List Word) :
    Host.Core.run core 2 { s with schedule := [.sequencer, .hostRead (regAddr .status)], reads := polled } =
      .next { ended i s with reads := polled ++ [statusWord (ended i s)] } := by
  have hcomplete : step { s with schedule := [.sequencer, .hostRead (regAddr .status)], reads := polled } =
      .next { ended i s with schedule := [.hostRead (regAddr .status)], reads := polled } := by
    rw [step_of_decode (s := { s with schedule := _, reads := polled }) hseq hd (.inl rfl), exec_eq,
      ← ended_schedule_reads]
  have hdone : { ended i s with schedule := [] } = ended i s := by rw [← hs, ← ended_schedule i s]
  calc Host.Core.run core 2 { s with schedule := [.sequencer, .hostRead (regAddr .status)], reads := polled }
    _ = Host.Core.run core 1 _ := run_succ 1 hcomplete
    _ = Host.Core.run core 0 _ := run_succ 0 (step_readStatus rfl)
    _ = .next { { ended i s with schedule := [] } with reads := polled ++ [statusWord (ended i s)] } := rfl
    _ = _ := by rw [hdone]

/-- A `wait` on a command in progress (30_encoding.md R99). -/
theorem run_wait (n : Nat) :
    Host.Core.run core (n + 2) { s with schedule := (HostLine.wait n).turns } =
      .next { ended i s with
        reads := s.reads ++ List.replicate n (statusWord s) ++ [statusWord (ended i s)] } :=
  (run_polls 2 _ n rfl).trans (run_completion hseq hd hs _)

end Wait

/-- Settles O16: the write to CMD accepts the word, which decodes to the command, and `run_wait` does the rest. -/
theorem commandThenWaitRunsTheCommand : Obligations.CommandThenWaitRunsTheCommand := by
  intro s i n hb hi hs
  refine ⟨_, _, rfl, exec_eq _ _, ?_, ?_, ?_⟩
  · rw [getLsbD_zero_statusWord, busy_accept]
  · rw [getLsbD_zero_statusWord, busy_ended]
  · have hcmd : s.schedule = .hostWrite (regAddr .cmd) (encode i) :: (HostLine.wait n).turns := by
      simpa [programTurns, HostLine.turns] using hs
    have haccept := step_storeReg hb (r := .cmd) (by decide) (by decide) hcmd
    exact (run_succ (n + 2) haccept).trans
      (run_wait (s := accept (encode i) { s with schedule := [] }) rfl (decodeOfEncodeIsTheCommand i hi) rfl n)

end Sys2Proof.Machine
end

section
/-! The command lifecycle (40_command.md section 2): what completion does with the held word and
how it can fail, and what port accesses made while a command is in progress leave alone. -/

namespace Sys2Proof.Machine

/-! ### Completion -/

/-- Completion by what the held word decodes to: its command (40_command.md R112). -/
theorem complete_of_decode {s : State} {w : Word} {held : Operands} {i : Instr} (hseq : s.seq = .busy w held)
    (hd : decode w = .ok i) : complete s = exec i s := by
  simp [complete, hseq, hd]

/-- Completion of a word that does not decode (60_exceptions.md R243). -/
theorem complete_of_not_decode {s : State} {w : Word} {held : Operands} {e : DecodeError}
    (hseq : s.seq = .busy w held) (hd : decode w = .error e) : complete s = .next (raiseError .illegalCmd s) := by
  simp [complete, hseq, hd]

/-- With no turn left the sequencer moves (notes/assumptions/2.md). -/
theorem step_of_no_turn {s : State} (h : s.schedule = []) : step s = complete s := by
  rw [step, nextTurn, h]

/-- A command that sets ERR ended by `raise` (40_command.md R116), whether its word decoded or not. -/
theorem raiseError_of_err {s t : State} (hb : busy s = true) (herr : s.status.err = false)
    (hc : complete s = .next t) (ht : t.status.err = true) : ∃ e, t = raiseError e s := by
  rcases complete_cases hc with ⟨hidle, -⟩ | ⟨w, held, -, ⟨i, -, rfl⟩ | rfl⟩
  · simp [busy, hidle] at hb
  · rcases ended_cases i s with ⟨e, -, hend⟩ | ⟨-, hend⟩
    · exact ⟨e, hend⟩
    · simp [hend, herr] at ht
  · exact ⟨.illegalCmd, rfl⟩

theorem commandError_of_invalid {i : Instr} {s : State} (h : ¬ valid i s = true) :
    commandError i s = some .invalidArgument := if_neg h

/-- A command that passes its checks can fail for lack of capacity only (40_command.md R115). -/
theorem commandError_of_valid {i : Instr} {s : State} (h : valid i s = true) :
    commandError i s = some .capacity ∨ commandError i s = none := by
  rw [commandError, if_pos h]
  split
  · exact .inl rfl
  · exact .inr rfl

/-! ### Port accesses while BUSY (40_command.md R111, R118) -/

/-- `t` is `s` but for what the host's accesses may change while a command is in progress: the schedule, what the
reads returned, the draws, BWERR and DONE. -/
def OnlyAccessed (s t : State) : Prop :=
  ∃ sc rd n bw dn, t = { s with
    schedule := sc, reads := rd, draws := n, status := { s.status with bwerr := bw, done := dn } }

theorem OnlyAccessed.refl (s : State) : OnlyAccessed s s := ⟨_, _, _, _, _, rfl⟩

theorem OnlyAccessed.trans {s t u : State} (hst : OnlyAccessed s t) (htu : OnlyAccessed t u) : OnlyAccessed s u := by
  obtain ⟨_, _, _, _, _, rfl⟩ := hst
  obtain ⟨sc, rd, n, bw, dn, rfl⟩ := htu
  exact ⟨sc, rd, n, bw, dn, rfl⟩

theorem OnlyAccessed.seq_eq {s t : State} (h : OnlyAccessed s t) : t.seq = s.seq := by
  obtain ⟨_, _, _, _, _, rfl⟩ := h
  rfl

theorem OnlyAccessed.busy_eq {s t : State} (h : OnlyAccessed s t) : busy t = busy s := by
  rw [busy, h.seq_eq, busy]

/-- One port access while BUSY always answers a next state. -/
theorem step_portAccess {s : State} {a : Turn} {rest : List Turn} (hb : busy s = true) (ha : a.isPortAccess = true)
    (hs : s.schedule = a :: rest) : ∃ t, step s = .next t ∧ t.schedule = rest ∧ OnlyAccessed s t := by
  cases a with
  | hostRead a => exact ⟨_, step_hostRead hs, rfl, ⟨_, _, _, s.status.bwerr, s.status.done, rfl⟩⟩
  | hostWrite a v =>
    obtain ⟨dn, bw, hw⟩ := hostWrite_busy (s := { s with schedule := rest }) hb a v
    exact ⟨_, step_hostWrite hs, hostWrite_schedule _ _ _, ⟨_, _, _, bw, dn, hw⟩⟩
  | carrierLoad _ _ | carrierSave _ | reset _ | sequencer => exact absurd ha Bool.false_ne_true

/-- However many accesses come, the command stays in progress and they all complete. -/
theorem run_portAccesses (k : Nat) {turns : List Turn} (hports : ∀ a ∈ turns, a.isPortAccess = true) {s : State}
    (hb : busy s = true) (hs : s.schedule = turns) :
    ∃ t, Host.Core.run core (turns.length + k) s = Host.Core.run core k t ∧ t.schedule = [] ∧
      OnlyAccessed s t := by
  induction turns generalizing s with
  | nil => exact ⟨s, by rw [List.length_nil, Nat.zero_add], hs, .refl s⟩
  | cons a rest ih =>
    obtain ⟨ha, hrest⟩ := List.forall_mem_cons.1 hports
    obtain ⟨t, hstep, ht, hst⟩ := step_portAccess hb ha hs
    obtain ⟨u, hrun, hu, htu⟩ := ih hrest (hst.busy_eq.trans hb) ht
    exact ⟨u, by rw [List.length_cons, Nat.add_right_comm, run_succ _ hstep, hrun], hu, hst.trans htu⟩

/-- Completion does not see the accesses made before it: they show in its result only where it writes nothing. -/
theorem OnlyAccessed.complete_eq {s t now : State} (hst : OnlyAccessed s t) (hb : busy s = true)
    (hnow : complete s = .next now) :
    complete t = .next { now with
      schedule := t.schedule, reads := t.reads, draws := t.draws
      status := { now.status with bwerr := t.status.bwerr } } := by
  obtain ⟨w, held, hseq⟩ := seq_of_busy hb
  have hseq' : t.seq = .busy w held := hst.seq_eq.trans hseq
  cases hd : decode w with
  | ok i =>
    rw [complete_of_decode hseq hd, exec_next_iff] at hnow
    rw [complete_of_decode hseq' hd, exec_eq, ← hnow]
    obtain ⟨sc, rd, n, bw, dn, rfl⟩ := hst
    rw [ended_outside]
  | error e =>
    rw [complete_of_not_decode hseq hd] at hnow
    injection hnow with hnow
    rw [complete_of_not_decode hseq' hd, ← hnow]
    obtain ⟨sc, rd, n, bw, dn, rfl⟩ := hst
    rfl

end Sys2Proof.Machine
end

section
/-! The statements about the command lifecycle and NOP (40_command.md), each from the lemmas above. -/

namespace Sys2Proof.Machine

/-- Settles O8: the write is lost, as `hostWrite_lost` says. -/
theorem hostWriteWhileBusyOnlySetsBwerr : Obligations.HostWriteWhileBusyOnlySetsBwerr := by
  intro s addr v rest hb haddr hs
  rw [step_hostWrite hs, hostWrite_lost (s := { s with schedule := rest }) hb haddr]

/-- Settles O10: the held word's command ends, or ILLEGAL_CMD is raised; either way `end()` comes last. -/
theorem completionAlwaysEndsTheCommand : Obligations.CompletionAlwaysEndsTheCommand := by
  intro s rest hb hn
  obtain ⟨w, held, hseq⟩ := seq_of_busy hb
  rw [step_sequencer hn]
  rcases complete_busy (s := { s with schedule := rest }) hseq with ⟨i, -, hc⟩ | ⟨-, hc⟩
  · exact ⟨_, hc, busy_ended _ _, ended_done _ _, ended_schedule _ _⟩
  · exact ⟨_, hc, busy_raiseError _ _, rfl, raiseError_schedule _ _⟩

/-- Settles O15: the accesses lead to a state that is only `OnlyAccessed`, and completion does not see that. -/
theorem hostAccessesWhileBusyDoNotChangeTheOutcome : Obligations.HostAccessesWhileBusyDoNotChangeTheOutcome := by
  intro s hb hports
  obtain ⟨now, hnow, -, -, hempty⟩ :=
    completionAlwaysEndsTheCommand { s with schedule := [] } [] hb (.inr ⟨rfl, rfl⟩)
  obtain ⟨t, hrun, ht, hst⟩ := run_portAccesses 1 hports hb rfl
  have hafter : OnlyAccessed { s with schedule := [] } t := .trans ⟨_, _, _, _, _, rfl⟩ hst
  have hlater := hafter.complete_eq hb hnow
  rw [ht, ← hempty] at hlater
  have hstep : step t = .next _ := (step_of_no_turn ht).trans hlater
  exact ⟨now, _, hnow, hrun.trans (run_succ 0 hstep), _, _, _, rfl⟩

/-- Settles O11: ERR comes from `raise` alone, which changes STATUS and the sequencer. -/
theorem failedCommandChangesOnlyStatus : Obligations.FailedCommandChangesOnlyStatus := by
  intro s t rest hb hn herr hstep ht
  obtain ⟨e, rfl⟩ := raiseError_of_err (s := { s with schedule := rest }) hb herr (complete_of_step hn hstep) ht
  rfl

/-- Settles O12: the table's row of each command is `valid`, which alone decides INVALID_ARGUMENT. -/
theorem operandRangeChecksAsTheTableSays : Obligations.OperandRangeChecksAsTheTableSays := by
  intro i s lpOk lmOk carOk allHold
  have hvalid : valid i s = true ↔ allHold := by
    cases i with
    | nop => exact iff_of_true rfl trivial
    | hide => exact valid_hide_iff s
    | showCmd => exact valid_showCmd_iff s
    | chkcap => exact valid_chkcap_iff s
    | maskat k => exact valid_maskat_iff k s
    | frame => exact valid_frame_iff s
    | unframe => exact valid_unframe_iff s
  rw [← hvalid, exec_eq]
  refine ⟨fun hinvalid => ?_, fun hv hcode => ⟨_, rfl, ?_⟩⟩
  · rw [ended_of_error (commandError_of_invalid hinvalid)]
    rfl
  · rcases commandError_of_valid hv with herr | hok
    · rw [ended_of_error herr, raiseError_status]
      exact (by decide : errorNumber .capacity ≠ 4#4)
    · rw [ended_of_success hok, finish_status, performed_errcode, hcode]
      decide

/-- Settles O5: `step_of_decode` says it. -/
theorem stepRunsTheDecodedCommand : Obligations.StepRunsTheDecodedCommand :=
  fun _ _ _ _ _ => step_of_decode

/-- Settles O7: CMD is at 0x008, and a write to it while IDLE is `accept`. -/
theorem commandWriteWhileIdleAccepts : Obligations.CommandWriteWhileIdleAccepts := by
  intro s w rest hb hs
  rw [step_hostWrite hs, hostWrite_cmd (s := { s with schedule := rest }) hb (by decide)]
  rfl

/-- Settles O17: NOP is `end()` alone. -/
theorem nopOnlySetsDone : Obligations.NopOnlySetsDone := fun _ => rfl

end Sys2Proof.Machine
end

section
/-! The mask and MASKAT (41_cipher.md): the password repeats, and a MASKAT whose `Lp` fits the window always succeeds. -/

namespace Sys2Proof.Machine

/-- The mask repeats every `Lp` bytes (41_cipher.md R130); with `Lp = 0` it is 0 throughout. -/
theorem maskByte_add_passwordLength (s : State) (i : Nat) : maskByte s (i + passwordLength s) = maskByte s i := by
  rw [maskByte, Nat.add_mod_right, ← maskByte]

/-- A MASKAT whose password length is valid ends with its effect: no other operand is checked (40_command.md R114). -/
theorem exec_maskat_of_pwdLenOk {s : State} (h : pwdLenOk s) (index : Nat) :
    exec (.maskat index) s = .next (finish { s with result := (maskByte s index).setWidth 32 }) := by
  have hok : commandError (.maskat index) s = none :=
    commandError_none_of_valid ((valid_maskat_iff index s).2 h) nofun nofun
  rw [exec_eq, ended_of_success hok, performed]

/-- Settles O18: the command succeeds, and the two cases of the mask are those of RESULT. -/
theorem maskatReturnsTheMaskByte : Obligations.MaskatReturnsTheMaskByte := by
  intro s index hlen
  have hresult : (maskByte s index).setWidth 32 =
      if (operands s).ctrl.cipherEn = true ∧ (operands s).pwdLen.toNat ≠ 0 then
        (pwdByte s (index % (operands s).pwdLen.toNat)).setWidth 32
      else 0#32 := by
    simp only [maskByte, passwordLength, Nat.pos_iff_ne_zero, apply_ite (BitVec.setWidth 32)]
    rfl
  rw [exec_maskat_of_pwdLenOk hlen, hresult]
  rfl

/-- Settles O19: agreement is `maskByte_congr`, the period `maskByte_add_passwordLength`. -/
theorem maskDependsOnlyOnThePassword : Obligations.MaskDependsOnlyOnThePassword := by
  intro s s' hcipher hlen hpwd i
  have hsame : maskByte s' i = maskByte s i :=
    maskByte_congr hcipher.symm hlen.symm (fun j hj => (hpwd j hj).symm) i
  exact ⟨hsame.symm, maskByte_add_passwordLength s i⟩

end Sys2Proof.Machine
end

section
/-! FRAME and UNFRAME (42_framer.md): what a write of a run of OUT bytes leaves to be read, and the two commands with
their lengths in range. -/

namespace Sys2Proof.Machine

/-- OUT after a command that wrote its first `n` entries: the written bytes, then what was there (10_state.md R38). -/
theorem outByte_of_storeBytes {s t : State} {f : Nat → Byte} {n : Nat}
    (hout : t.out = storeBytes f (List.range n) s.out) (hresets : t.resets = s.resets) (i : Nat) :
    outByte t i = if i < n then f i else outByte s i := by
  rw [outByte, hout, hresets, storeBytes_read?]
  simp only [List.mem_range]
  split
  · rfl
  · rfl

/-- A valid command other than HIDE and CHKCAP ends with its effect: these two alone check the capacity
(40_command.md R115). -/
theorem exec_of_valid {i : Instr} {s : State} (hv : valid i s = true) (hh : i ≠ .hide) (hc : i ≠ .chkcap) :
    exec i s = .next (finish (performed i s)) := by
  rw [exec_eq, ended_of_success (commandError_none_of_valid hv hh hc)]

/-- OUT after a successful FRAME: the framed payload, then what was there (42_framer.md R155). -/
theorem outByte_frame (s : State) (i : Nat) :
    outByte (finish (performed .frame s)) i = if i < framedLength s then framedByte s i else outByte s i :=
  outByte_of_storeBytes (s := s) (t := finish (performed .frame s)) rfl rfl i

/-- OUT after a successful UNFRAME: the unmasked message buffer, then what was there (42_framer.md R156). -/
theorem outByte_unframe (s : State) (i : Nat) :
    outByte (finish (performed .unframe s)) i = if i < messageLength s then unframedByte s i else outByte s i :=
  outByte_of_storeBytes (s := s) (t := finish (performed .unframe s)) rfl rfl i

theorem ofNat_messageLength (s : State) : BitVec.ofNat 32 (messageLength s) = (operands s).msgLen := by
  rw [messageLength, BitVec.ofNat_toNat, BitVec.setWidth_eq]

/-- Settles O20: OUT holds the framed payload, whose bytes are the masked message and then the terminator. -/
theorem frameWritesMaskedMessageAndTerminator : Obligations.FrameWritesMaskedMessageAndTerminator := by
  intro s hpwd hmsg
  have hpayload : ∀ i, i < messageLength s + 3 → outByte (finish (performed .frame s)) i = framedByte s i :=
    fun i hi => (outByte_frame s i).trans (if_pos hi)
  obtain ⟨hterm0, hterm1, hterm2⟩ := framedByte_terminator s
  refine ⟨_, exec_of_valid ((valid_frame_iff s).2 ⟨hpwd, hmsg⟩) nofun nofun, rfl, ?_, ?_, ?_, ?_, hpayload, ?_⟩
  · intro i hi
    exact (hpayload i (Nat.lt_add_right 3 hi)).trans (framedByte_message hi)
  · exact (hpayload (messageLength s) (by omega)).trans hterm0
  · exact (hpayload (messageLength s + 1) (by omega)).trans hterm1
  · exact (hpayload (messageLength s + 2) (by omega)).trans hterm2
  · intro i hi
    exact (outByte_frame s i).trans (if_neg (Nat.not_lt.2 hi))

/-- Settles O21: OUT holds the unmasked message buffer, and the message length is its own 32-bit word. -/
theorem unframeWritesUnmaskedMessage : Obligations.UnframeWritesUnmaskedMessage := by
  intro s hpwd hmsg
  refine ⟨_, exec_of_valid ((valid_unframe_iff s).2 ⟨hpwd, hmsg⟩) nofun nofun, ?_, ?_, ?_⟩
  · rw [← ofNat_messageLength]
    rfl
  · intro i hi
    exact (outByte_unframe s i).trans (if_pos hi)
  · intro i hi
    exact (outByte_unframe s i).trans (if_neg (Nat.not_lt.2 hi))

/-- Settles O22: FRAME and UNFRAME XOR the same mask, `maskByte_congr`, so the two cancel (41_cipher.md R132). -/
theorem unframeAfterFrameGivesTheMessage : Obligations.UnframeAfterFrameGivesTheMessage := by
  intro s t s' hpwd hmsg hframe hparams hpwdLen hmsgLen hcipher hpwdBytes hmsgBytes
  obtain ⟨u, hu, -, hmasked, -⟩ := frameWritesMaskedMessageAndTerminator s hpwd hmsg
  obtain rfl : u = t := by
    injection hu.symm.trans hframe
  have hpwd' : pwdLenOk s' := by
    rwa [pwdLenOk, passwordLength, hpwdLen, hparams]
  have hmsg' : msgLenOk s' := by
    rwa [msgLenOk, messageLength, hmsgLen, hparams]
  obtain ⟨t', ht', hends, hunmasked, -⟩ := unframeWritesUnmaskedMessage s' hpwd' hmsg'
  rw [hmsgLen] at hends hunmasked
  refine ⟨t', ht', by rw [hends], fun i hi => ?_⟩
  calc outByte t' i = msgByte s' i ^^^ maskByte s' i := hunmasked i hi
    _ = msgByte s i ^^^ maskByte s i ^^^ maskByte s i := by
      rw [hmsgBytes i hi, hmasked i hi, maskByte_congr hcipher hpwdLen hpwdBytes]
    _ = msgByte s i := by rw [BitVec.xor_assoc, BitVec.xor_self, BitVec.xor_zero]

end Sys2Proof.Machine
end

section
/-! CHKCAP and the capacity check (43_capacity.md): with its operands in range the command ends with its effect when the
framed payload fits the carrier, and with CAPACITY when it does not. -/

namespace Sys2Proof.Machine

/-- The check compares natural numbers: no product or sum is cut to a word (43_capacity.md R170, R171). -/
theorem capacityOk_iff (s : State) :
    capacityOk s ↔ 8 * ((operands s).msgLen.toNat + 3) ≤ (operands s).width.toNat * (operands s).height.toNat := Iff.rfl

/-- HIDE and CHKCAP with operands in range fail when the framed payload does not fit (43_capacity.md R171). -/
theorem commandError_capacity_of_not_fits {i : Instr} {s : State} (hi : i = .hide ∨ i = .chkcap)
    (hv : valid i s = true) (hc : ¬ capacityOk s) : commandError i s = some .capacity := by
  rw [commandError, if_pos hv, if_pos ⟨hi, hc⟩]

/-- Settles O23: `capacityOk` is the comparison of the statement, and with the operands in range it alone decides. -/
theorem chkcapPassesExactlyWhenPayloadFits : Obligations.ChkcapPassesExactlyWhenPayloadFits := by
  intro s hmsg hcar
  have hv : valid .chkcap s = true := (valid_chkcap_iff s).2 ⟨hmsg, hcar⟩
  simp only [exec_eq, ← capacityOk_iff]
  by_cases hfits : capacityOk s
  · rw [ended_of_success (commandError_none_of_fits hv hfits), if_pos hfits]
    rfl
  · rw [ended_of_error (commandError_capacity_of_not_fits (.inr rfl) hv hfits), if_neg hfits]
    rfl

end Sys2Proof.Machine
end

section
/-! The bit packer and HIDE (44_pack.md): what each bit of each pixel is after the packer's writes, and so after a HIDE,
whether it succeeds or fails. -/

namespace Sys2Proof.Machine

/-- The packer changes no bit but bit 0 of the pixels it reaches (44_pack.md R193, R194). -/
theorem getLsbD_packedCarrier (s : State) (k b : Nat) :
    (csRead (packedCarrier s) k).getLsbD b =
      if k < framedBits s ∧ b = 0 then streamBit s k else (carrierByte s k).getLsbD b := by
  rw [carrierByte_packed]
  by_cases hk : k < framedBits s
  · rw [if_pos hk, getLsbD_pixel]
    simp only [hk, true_and]
  · rw [if_neg hk, if_neg (fun h => hk h.1)]

/-- Whether it ends with an error or not, a HIDE keeps bits 7:1 of every pixel (44_pack.md R193, 40_command.md R113). -/
theorem getLsbD_carrierByte_ended_hide (s : State) (k : Nat) {b : Nat} (hb : 1 ≤ b) :
    (carrierByte (ended .hide s) k).getLsbD b = (carrierByte s k).getLsbD b := by
  rcases ended_cases .hide s with ⟨e, -, hfail⟩ | ⟨-, hok⟩
  · rw [hfail]
    rfl
  · rw [hok]
    exact (getLsbD_packedCarrier s k b).trans (if_neg (by omega))

/-- A HIDE whose operands are in range and whose framed payload fits ends with its effect (44_pack.md R195). -/
theorem ended_hide_of_fits {s : State} (hpwd : pwdLenOk s) (hmsg : msgLenOk s) (hcar : carrierOk s)
    (hfits : capacityOk s) : ended .hide s = finish (performed .hide s) :=
  ended_of_success (commandError_none_of_fits ((valid_hide_iff s).2 ⟨hpwd, hmsg, hcar⟩) hfits)

/-- After a successful HIDE, bit 0 of each pixel the stream reaches is its stream bit (44_pack.md R193). -/
theorem carrierBit_performed_hide {s : State} {j : Nat} (hj : j < framedBits s) :
    carrierBit (finish (performed .hide s)) j = streamBit s j :=
  (getLsbD_packedCarrier s j 0).trans (if_pos ⟨hj, rfl⟩)

/-- Settles O24: bit 0 of a reached pixel is the stream bit, one case per bit order; the other bits and pixels are those
any HIDE keeps. -/
theorem hideWritesTheStreamIntoTheLowBits : Obligations.HideWritesTheStreamIntoTheLowBits := by
  intro s hpwd hmsg hcar hfits
  have hend := ended_hide_of_fits hpwd hmsg hcar ((capacityOk_iff s).2 hfits)
  refine ⟨ended .hide s, exec_eq .hide s, ?_, fun j hj => ⟨?_, fun b => getLsbD_carrierByte_ended_hide s j⟩,
    fun k => carrierByte_ended_hide⟩
  · rw [hend]
    rfl
  · rw [hend]
    refine (carrierBit_performed_hide hj).trans ?_
    rw [streamBit]
    cases (operands s).ctrl.bitOrder with
    | msbFirst => rfl
    | lsbFirst => rfl

/-- Settles O25: both parts hold of the one state a HIDE ends in, error or not. -/
theorem hideKeepsUpperBitsAndLaterPixels : Obligations.HideKeepsUpperBitsAndLaterPixels := by
  intro s t ht k
  rw [exec_next_iff] at ht
  subst ht
  exact ⟨fun b => getLsbD_carrierByte_ended_hide s k, carrierByte_ended_hide⟩

end Sys2Proof.Machine
end

section
/-! The bit unpacker and SHOW (45_unpack.md): the bytes a SHOW writes are the completed bytes of R211 under the mask, its
scan depends on the pixels and the bit order alone, and over the pixels a HIDE wrote it reads the framed payload back. -/

namespace Sys2Proof.Machine

/-! ### What a scan and a SHOW leave -/

/-- A scan that ends without a terminator keeps every completed byte (45_unpack.md R213). -/
theorem scanLength_scanAt (order : BitOrder) (bitAt : Nat → Bool) (k : Nat) :
    scanLength (scanAt order bitAt k) = k / 8 := by
  simp [scanLength, scanAt]

/-- A scan stopped by byte `m` keeps the `m - 2` bytes before the terminator (45_unpack.md R212, R214). -/
theorem scanLength_found (order : BitOrder) (bitAt : Nat → Bool) (m : Nat) :
    scanLength { scanAt order bitAt (8 * (m + 1)) with found := true } = m - 2 := by
  simp [scanLength, scanAt]

/-- A completed byte of the scan's buffer is the sum of its eight pixels (45_unpack.md R211). -/
theorem getD_buf_scanAt (order : BitOrder) (bitAt : Nat → Bool) {k i : Nat} (hi : i < k / 8) :
    (scanAt order bitAt k).buf.getD i 0x00#8 = streamByte order bitAt i := by
  simp [scanAt, List.getD_eq_getElem?_getD, List.getElem?_range hi]

/-- The bytes a SHOW keeps, with a terminator or without, are completed bytes of the carrier. -/
theorem getD_buf_scanCarrier {s : State} {i : Nat} (hi : i < scanLength (scanCarrier s)) :
    (scanCarrier s).buf.getD i 0x00#8 = completedByte s i := by
  rcases scanCarrier_cases s with ⟨m, -, -, -, hscan⟩ | ⟨-, hscan⟩
  · rw [hscan, scanLength_found] at hi
    rw [hscan]
    exact getD_buf_scanAt _ _ (by omega)
  · rw [hscan, scanLength_scanAt] at hi
    rw [hscan]
    exact getD_buf_scanAt _ _ hi

/-- OUT after a successful SHOW: the unmasked completed bytes, then what was there (45_unpack.md R214, R215). -/
theorem outByte_show (s : State) (i : Nat) :
    outByte (finish (performed .showCmd s)) i =
      if i < scanLength (scanCarrier s) then completedByte s i ^^^ maskByte s i else outByte s i := by
  refine (outByte_of_storeBytes (s := s) (t := finish (performed .showCmd s)) rfl rfl i).trans ?_
  split
  · rw [getD_buf_scanCarrier ‹_›]
  · rfl

/-- A SHOW whose operands are in range ends with its effect (40_command.md R114). -/
theorem exec_show_of_ok {s : State} (hpwd : pwdLenOk s) (hcar : carrierOk s) :
    exec .showCmd s = .next (finish (performed .showCmd s)) :=
  exec_of_valid ((valid_showCmd_iff s).2 ⟨hpwd, hcar⟩) nofun nofun

/-- A SHOW with its operands in range, by the three results of its scan. -/
theorem exec_show_of_scan {s : State} {len k : Nat} {found : Bool} (hpwd : pwdLenOk s) (hcar : carrierOk s)
    (hlen : scanLength (scanCarrier s) = len) (hk : (scanCarrier s).k = k) (hfound : (scanCarrier s).found = found) :
    ∃ t, exec .showCmd s = .next t ∧
      t = { s with
        seq := .idle
        status := { s.status with done := true, term := found }
        out := t.out
        outLen := BitVec.ofNat 32 len
        cursor := BitVec.ofNat 32 k } ∧
      (∀ i, i < len → outByte t i = completedByte s i ^^^ maskByte s i) ∧
      (∀ i, len ≤ i → outByte t i = outByte s i) := by
  subst hlen hk hfound
  exact ⟨_, exec_show_of_ok hpwd hcar, rfl, fun i hi => (outByte_show s i).trans (if_pos hi),
    fun i hi => (outByte_show s i).trans (if_neg (Nat.not_lt.2 hi))⟩

/-- Settles O27: the scan stops after `8 * (m + 1)` pixels with `m + 1` bytes, the last three the terminator. -/
theorem showStopsAtTheFirstTerminator : Obligations.ShowStopsAtTheFirstTerminator := by
  intro s m hpwd hcar hm hterm hfirst
  have hscan := scanCarrier_to_terminator hm hterm hfirst
  exact exec_show_of_scan hpwd hcar (by rw [hscan, scanLength_found]) (by rw [hscan]; rfl) (by rw [hscan])

/-- Settles O28: the scan reads all `N` pixels and keeps the `N div 8` bytes they complete. -/
theorem showWithoutTerminatorReturnsEveryByte : Obligations.ShowWithoutTerminatorReturnsEveryByte := by
  intro s hpwd hcar n hnone
  have hscan : scanCarrier s = scanAt (operands s).ctrl.bitOrder (carrierBit s) n :=
    scanCarrier_without_terminator hnone
  exact exec_show_of_scan hpwd hcar (by rw [hscan, scanLength_scanAt]) (by rw [hscan]; rfl) (by rw [hscan]; rfl)

/-- Under legal parameters OUT_LEN holds the length exactly: no carrier has 2^32 pixels (00_scope.md R8). -/
theorem toNat_outLen_show {s : State} (hlegal : s.params.legal) (hcar : carrierOk s) :
    (finish (performed .showCmd s)).outLen.toNat = scanLength (scanCarrier s) := by
  obtain ⟨-, -, ⟨-, hcarMax⟩, -⟩ := hlegal
  have hlen := (scanCarrier_bounds s).1
  exact (BitVec.toNat_ofNat _ _).trans (Nat.mod_eq_of_lt (by omega))

/-- Settles O29: a failed SHOW leaves all but STATUS, and a successful one writes OUT below its scan's length. -/
theorem showWritesOutOnlyBelowOutLen : Obligations.ShowWritesOutOnlyBelowOutLen := by
  intro s t hlegal herr hshow
  obtain rfl := (exec_next_iff _ _ _).1 hshow
  refine ⟨ended_carrier_of_ne s nofun, ?_⟩
  rcases ended_cases .showCmd s with ⟨e, -, hfail⟩ | ⟨hok, hdone⟩
  · rw [hfail]
    exact ⟨nofun, fun _ => rfl⟩
  · obtain ⟨-, hcar⟩ := (valid_showCmd_iff s).1 (valid_of_success hok)
    rw [hdone, toNat_outLen_show hlegal hcar]
    refine ⟨fun _ i hi => (outByte_show s i).trans (if_neg (Nat.not_lt.2 hi)), fun h => ?_⟩
    exact absurd (herr.symm.trans h) Bool.false_ne_true

/-! ### The scan and the password -/

theorem carrierBit_congr {s s' : State} (hcarrier : s'.carrier = s.carrier) : carrierBit s' = carrierBit s := by
  funext k
  simp only [carrierBit, carrierByte, hcarrier]

section SameCarrier
variable {s s' : State} (hcarrier : s'.carrier = s.carrier)
  (horder : (operands s').ctrl.bitOrder = (operands s).ctrl.bitOrder)
include hcarrier horder

theorem completedByte_congr (i : Nat) : completedByte s' i = completedByte s i := by
  simp only [completedByte, carrierBit_congr hcarrier, horder]

/-- The scan takes no password, length or cipher setting: the terminator is stored unmasked (45_unpack.md R212). -/
theorem scanCarrier_congr (hcap : capacity s' = capacity s) : scanCarrier s' = scanCarrier s := by
  rw [scanCarrier, carrierBit_congr hcarrier, horder, hcap, ← scanCarrier]

end SameCarrier

/-- Settles O30: the two scans are one, so the outputs are the same bytes under the two masks. -/
theorem wrongPasswordStillFindsTheTerminator : Obligations.WrongPasswordStillFindsTheTerminator := by
  intro s s' hpwd hpwd' hcar hparams hwidth hheight horder hcarrier hstatus
  have hcap : capacity s' = capacity s := by rw [capacity, hwidth, hheight, ← capacity]
  have hcar' : carrierOk s' := by rwa [carrierOk, hcap, hparams]
  obtain ⟨t, ht, hend, hout, -⟩ := exec_show_of_scan hpwd hcar rfl rfl rfl
  obtain ⟨t', ht', hend', hout', -⟩ := exec_show_of_scan hpwd' hcar' rfl rfl rfl
  rw [scanCarrier_congr hcarrier horder hcap] at hend' hout'
  refine ⟨t, t', ht, ht', by rw [hend, hend'], by rw [hend, hend'], by rw [hend, hend', hstatus], by rw [hend],
    fun i hi => ?_⟩
  have hlt : i < scanLength (scanCarrier s) := by
    rw [hend] at hi
    exact Nat.lt_of_lt_of_le hi (toNat_ofNat_le _ _)
  calc outByte t' i = completedByte s i ^^^ maskByte s' i := by
        rw [hout' i hlt, completedByte_congr hcarrier horder]
    _ = completedByte s i ^^^ maskByte s i ^^^ maskByte s i ^^^ maskByte s' i := by
        rw [BitVec.xor_assoc (completedByte s i), BitVec.xor_self, BitVec.xor_zero]
    _ = outByte t i ^^^ maskByte s i ^^^ maskByte s' i := by rw [hout i hlt]

/-! ### SHOW after HIDE -/

/-- The pixels of `s'` that the framed payload of `s` reaches hold its stream bits, as after a HIDE. -/
def HoldsStream (s s' : State) : Prop := ∀ k, k < framedBits s → carrierBit s' k = streamBit s k

/-- A state that reads in those pixels what a successful HIDE left (44_pack.md R193). -/
theorem HoldsStream.of_hide {s t s' : State} (hpwd : pwdLenOk s) (hmsg : msgLenOk s) (hcar : carrierOk s)
    (hfits : capacityOk s) (hhide : exec .hide s = .next t)
    (hpixels : ∀ k, k < framedBits s → carrierByte s' k = carrierByte t k) : HoldsStream s s' := by
  intro k hk
  have ht : t = finish (performed .hide s) :=
    ((exec_next_iff _ _ _).1 hhide).symm.trans (ended_hide_of_fits hpwd hmsg hcar hfits)
  calc carrierBit s' k = carrierBit t k := by rw [carrierBit, hpixels k hk, ← carrierBit]
    _ = streamBit s k := by rw [ht, carrierBit_performed_hide hk]

/-- `00 00 03` cannot straddle the end of the message: the payload goes on with two zero bytes (45_unpack.md R217). -/
theorem not_framedTerminatorAt_straddling {s : State} {q : Nat} (hq : q < messageLength s)
    (hend : messageLength s ≤ q + 2) : ¬ framedTerminatorAt s q := by
  rintro ⟨-, -, hthree⟩
  obtain ⟨hzero, hzero', -⟩ := framedByte_terminator s
  have hlast : q + 2 = messageLength s ∨ q + 2 = messageLength s + 1 := by omega
  rcases hlast with h | h
  · rw [h, hzero] at hthree
    exact absurd hthree (by decide)
  · rw [h, hzero'] at hthree
    exact absurd hthree (by decide)

section ShowAfterHide
variable {s s' : State} (hstream : HoldsStream s s')
  (horder : (operands s').ctrl.bitOrder = (operands s).ctrl.bitOrder)
include hstream horder

/-- The bytes those pixels complete are the framed payload (45_unpack.md R218). -/
theorem completedByte_eq_framedByte {i : Nat} (hi : i < framedLength s) : completedByte s' i = framedByte s i := by
  refine completedByte_eq fun j hj => ?_
  have hdiv : (8 * i + j) / 8 = i := by omega
  have hmod : (8 * i + j) % 8 = j := by omega
  rw [hstream _ (by unfold framedBits; omega), streamBit, hdiv, hmod, horder]

/-- So the scan sees a terminator exactly where the framed payload has its bytes. -/
theorem terminatorEndsAt_add_two_iff {p : Nat} (hp : p ≤ messageLength s) :
    terminatorEndsAt s' (p + 2) ↔ framedTerminatorAt s p := by
  have hbyte : ∀ i, i ≤ p + 2 → completedByte s' i = framedByte s i := fun i hi =>
    completedByte_eq_framedByte hstream horder (by unfold framedLength; omega)
  have hprev : p + 2 - 1 = p + 1 := rfl
  rw [terminatorEndsAt, Nat.add_sub_cancel, hprev, hbyte p (by omega), hbyte (p + 1) (by omega), hbyte (p + 2) le_rfl]
  exact and_iff_right (Nat.le_add_left 2 p)

/-- A SHOW of those pixels returns the message bytes before the first `00 00 03` of the framed payload, the real
terminator or not (45_unpack.md R217, R218). -/
theorem exec_show_of_holdsStream {p : Nat} (hpwd : pwdLenOk s') (hcar : carrierOk s')
    (hroom : framedBits s ≤ capacity s') (hmask : ∀ i, maskByte s' i = maskByte s i) (hp : p ≤ messageLength s)
    (hterm : framedTerminatorAt s p) (hfirst : ∀ q, q < p → ¬ framedTerminatorAt s q) :
    ∃ t, exec .showCmd s' = .next t ∧ t.outLen = BitVec.ofNat 32 p ∧ t.status.term = true ∧
      t.cursor = BitVec.ofNat 32 (8 * (p + 3)) ∧ t.carrier = s'.carrier ∧
      (∀ i, i < p → outByte t i = msgByte s i) ∧ (∀ i, p ≤ i → outByte t i = outByte s' i) := by
  have hfirst' : ∀ m, m < p + 2 → ¬ terminatorEndsAt s' m := by
    intro m hm hends
    obtain ⟨q, rfl⟩ : ∃ q, m = q + 2 := ⟨m - 2, by have := hends.1; omega⟩
    exact hfirst q (by omega) ((terminatorEndsAt_add_two_iff hstream horder (by omega)).1 hends)
  have hfits : 8 * (p + 2 + 1) ≤ capacity s' := by
    unfold framedBits framedLength at hroom
    omega
  obtain ⟨t, ht, hend, hout, hlater⟩ := showStopsAtTheFirstTerminator s' (p + 2) hpwd hcar hfits
    ((terminatorEndsAt_add_two_iff hstream horder hp).2 hterm) hfirst'
  refine ⟨t, ht, by rw [hend]; rfl, by rw [hend], by rw [hend], by rw [hend], fun i hi => ?_, hlater⟩
  calc outByte t i = completedByte s' i ^^^ maskByte s' i := hout i hi
    _ = msgByte s i ^^^ maskByte s i ^^^ maskByte s i := by
      rw [completedByte_eq_framedByte hstream horder (by unfold framedLength; omega),
        framedByte_message (by omega), hmask]
    _ = msgByte s i := by rw [BitVec.xor_assoc, BitVec.xor_self, BitVec.xor_zero]

end ShowAfterHide

/-- Settles O32: the first `00 00 03` of the framed payload is the real terminator, since none starts in the message. -/
theorem showAfterHideGivesTheMessage : Obligations.ShowAfterHideGivesTheMessage := by
  intro s t s' hpwd hmsg hcar hfits hhide hpwd' hcar' hroom horder hcipher hpwdLen hpwdBytes hpixels hnone
  have hfirst : ∀ q, q < messageLength s → ¬ framedTerminatorAt s q := by
    intro q hq
    by_cases hinside : q + 2 < messageLength s
    · exact hnone q hinside
    · exact not_framedTerminatorAt_straddling hq (Nat.not_lt.1 hinside)
  obtain ⟨t', ht', hlen, hterm, hcursor, hcarrier, hout, -⟩ :=
    exec_show_of_holdsStream (.of_hide hpwd hmsg hcar hfits hhide hpixels) horder hpwd' hcar' hroom
      (maskByte_congr hcipher hpwdLen hpwdBytes) le_rfl (framedByte_terminator s) hfirst
  exact ⟨t', ht', hlen.trans (ofNat_messageLength s), hterm, hcursor, hcarrier, hout⟩

/-- Settles O33: the first `00 00 03` of the framed payload is the one at byte `p` of the ciphered message. -/
theorem showAfterHideStopsAtCipheredTerminator : Obligations.ShowAfterHideStopsAtCipheredTerminator := by
  intro s t s' p hpwd hmsg hcar hfits hhide hpwd' hcar' hroom horder hcipher hpwdLen hpwdBytes hpixels hp hterm hfirst
  have hinside : p ≤ messageLength s := Nat.le_trans (Nat.le_add_right p 2) (Nat.le_of_lt hp)
  obtain ⟨t', ht', hlen, hfound, hcursor, -, hout, hlater⟩ :=
    exec_show_of_holdsStream (.of_hide hpwd hmsg hcar hfits hhide hpixels) horder hpwd' hcar' hroom
      (maskByte_congr hcipher hpwdLen hpwdBytes) hinside hterm hfirst
  exact ⟨t', ht', hlen, hfound, hcursor, hout, hlater⟩

end Sys2Proof.Machine
end

section
/-! Exceptions (60_exceptions.md): which error code a step can report, and which steps can stop the machine. -/

namespace Sys2Proof.Machine

/-! ### The reserved code 2 (60_exceptions.md R242) -/

/-- Only `capacityPack` has code 2 (60_exceptions.md R240). -/
theorem errorNumber_ne_two {e : ErrorCode} (he : e ≠ .capacityPack) : errorNumber e ≠ 2#4 := by
  cases e with
  | capacityPack => exact absurd rfl he
  | capacity | illegalCmd | invalidArgument => decide

theorem errcode_raiseError_ne_two {e : ErrorCode} (he : e ≠ .capacityPack) (s : State) :
    (raiseError e s).status.errcode ≠ 2#4 := errorNumber_ne_two he

/-- A command that succeeds keeps ERRCODE; one that fails has one of the two errors of `commandError_cases`. -/
theorem errcode_ended_ne_two {s : State} (h : s.status.errcode ≠ 2#4) (i : Instr) :
    (ended i s).status.errcode ≠ 2#4 := by
  rcases ended_cases i s with ⟨e, he, hend⟩ | ⟨-, hend⟩ <;> rw [hend]
  · exact errcode_raiseError_ne_two (by rcases commandError_cases he with rfl | rfl <;> decide) s
  · rwa [finish_status, performed_errcode]

theorem errcode_complete_ne_two {s t : State} (h : s.status.errcode ≠ 2#4) (hc : complete s = .next t) :
    t.status.errcode ≠ 2#4 := by
  rcases complete_cases hc with ⟨-, rfl⟩ | ⟨w, held, -, ⟨i, -, rfl⟩ | rfl⟩
  · exact h
  · exact errcode_ended_ne_two h i
  · exact errcode_raiseError_ne_two (by decide) s

/-- A host write clears ERRCODE when it accepts a command, and else keeps it (10_state.md R27). -/
theorem errcode_hostWrite (a : PortAddr) (v : Word) (s : State) :
    (hostWrite a v s).status.errcode = s.status.errcode ∨ (hostWrite a v s).status.errcode = 0#4 := by
  rcases hostWrite_cases a v s with ⟨-, h⟩ | ⟨-, h⟩ | ⟨-, h⟩ <;> rw [h]
  · exact .inl rfl
  · exact .inl rfl
  · by_cases hcmd : target s.params a = .reg .cmd
    · rw [hcmd]
      exact .inr rfl
    · rw [(storeWord_seq_status hcmd v s).2]
      exact .inl rfl

theorem errcode_hostWrite_ne_two {s : State} (h : s.status.errcode ≠ 2#4) (a : PortAddr) (v : Word) :
    (hostWrite a v s).status.errcode ≠ 2#4 := by
  rcases errcode_hostWrite a v s with hw | hw <;> rw [hw]
  · exact h
  · decide

/-! ### What stops the machine (60_exceptions.md R257) -/

/-- The next turn is an access of the adapter to `CS[k]` (20_memory.md R87). -/
abbrev accessesCarrier (k : Nat) (s : State) : Prop :=
  ∃ rest, (∃ v, s.schedule = .carrierLoad k v :: rest) ∨ s.schedule = .carrierSave k :: rest

/-- Why an access to `CS[k]` faults: the conflict of 20_memory.md R82 while BUSY, or no such byte (R70) while IDLE. -/
abbrev accessFault (k : Nat) (s : State) (f : Fault) : Prop :=
  (f = .hostCarrierConflict ∧ busy s = true) ∨
    (f = .carrierOutOfRange ∧ busy s = false ∧ s.params.carMax ≤ k)

/-- The two checks that a load and a save of `CS[k]` share, by what they answer. -/
theorem carrierAccess_cases {k : Nat} {s t : State} {o : Host.Outcome State Fault Refusal}
    (ho : o =
      if busy s then .fault .hostCarrierConflict
      else if k < s.params.carMax then .next t
      else .fault .carrierOutOfRange) :
    (∃ t, o = .next t) ∨ ∃ f, o = .fault f ∧ accessFault k s f := by
  cases hb : busy s with
  | true => exact .inr ⟨_, ho.trans (if_pos hb), .inl ⟨rfl, hb⟩⟩
  | false =>
    rw [hb, if_neg Bool.false_ne_true] at ho
    by_cases hk : k < s.params.carMax
    · exact .inl ⟨t, ho.trans (if_pos hk)⟩
    · exact .inr ⟨_, ho.trans (if_neg hk), .inr ⟨rfl, hb, not_lt.1 hk⟩⟩

/-- Completion always answers a next state: no command faults and none is refused. -/
theorem complete_answers (s : State) : ∃ t, complete s = .next t := by
  cases hseq : s.seq with
  | idle => exact ⟨s, complete_idle hseq⟩
  | busy w held =>
    rcases complete_busy hseq with ⟨i, -, hc⟩ | ⟨-, hc⟩
    · exact ⟨_, hc⟩
    · exact ⟨_, hc⟩

/-- Every step answers a next state, but for an access of the adapter that faults. -/
theorem step_answers (s : State) :
    (∃ t, step s = .next t) ∨ ∃ k f, accessesCarrier k s ∧ step s = .fault f ∧ accessFault k s f := by
  cases hs : s.schedule with
  | nil =>
    rw [step_of_no_turn hs]
    exact .inl (complete_answers s)
  | cons turn rest =>
    rw [step_turn hs]
    cases turn with
    | hostRead _ | hostWrite _ _ | reset _ => exact .inl ⟨_, rfl⟩
    | sequencer => exact .inl (complete_answers _)
    | carrierLoad k v =>
      exact (carrierAccess_cases (s := { s with schedule := rest }) rfl).imp_right fun ⟨f, hf, hwhy⟩ =>
        ⟨k, f, ⟨rest, .inl ⟨v, hs⟩⟩, hf, hwhy⟩
    | carrierSave k =>
      exact (carrierAccess_cases (s := { s with schedule := rest }) rfl).imp_right fun ⟨f, hf, hwhy⟩ =>
        ⟨k, f, ⟨rest, .inr hs⟩, hf, hwhy⟩

/-! ### The statements -/

/-- Settles O6: completion of the held word is `raise ILLEGAL_CMD`, whose code is 3. -/
theorem illegalWordCompletesWithCodeThree : Obligations.IllegalWordCompletesWithCodeThree := by
  intro s w held e rest hseq hd hn
  rw [step_sequencer hn, complete_of_not_decode (s := { s with schedule := rest }) hseq hd]
  rfl

/-- Settles O13: the operands are in range, so the capacity check decides, and it fails. -/
theorem capacityErrorWhenPayloadTooLong : Obligations.CapacityErrorWhenPayloadTooLong := by
  intro i s hi hv hlong
  have hfails : ¬ capacityOk s := fun hfits => absurd ((capacityOk_iff s).1 hfits) (not_le.2 hlong)
  rw [exec_eq, ended_of_error (commandError_capacity_of_not_fits hi hv hfails)]
  rfl

/-- Settles O26: every command answers a next state; and of the turns a step can take (`step_cases`) three
touch ERRCODE: completion and a host write never make it 2, and a reset clears it. -/
theorem hideNeverExhaustsTheCarrier : Obligations.HideNeverExhaustsTheCarrier := by
  refine ⟨fun s f hf => ?_, fun s t h hstep => ?_⟩
  · rw [exec_eq] at hf
    cases hf
  · rcases step_cases hstep with ⟨rest, -, hc⟩ | ⟨a, rest, -, rfl⟩ | ⟨a, v, rest, -, rfl⟩ |
      ⟨k, v, rest, -, -, -, rfl⟩ | ⟨k, rest, -, -, -, rfl⟩ | ⟨written, rest, -, rfl⟩
    · exact errcode_complete_ne_two (s := { s with schedule := rest }) h hc
    · exact h
    · exact errcode_hostWrite_ne_two (s := { s with schedule := rest }) h a v
    · exact h
    · exact h
    · rw [resetBlock_status]
      decide

/-- Settles O48: `step_answers` names the only outcome that is not a next state. -/
theorem onlyAdapterAccessesStopTheMachine : Obligations.OnlyAdapterAccessesStopTheMachine := by
  intro s
  rcases step_answers s with ⟨t, ht⟩ | ⟨k, f, ⟨rest, haccess⟩, hf, hwhy⟩
  · rw [ht]
    exact ⟨nofun, nofun⟩
  · rw [hf]
    refine ⟨nofun, fun g hg => ⟨k, rest, haccess, ?_⟩⟩
    injection hg with hg
    exact hg ▸ hwhy

end Sys2Proof.Machine
end

section
/-! Reset and the end of a run (70_reset_and_hazards.md): what a reset leaves of the Carrier Store, pixel by pixel, and
that a run which has ended moves no more. -/

namespace Sys2Proof.Machine

/-! ### The Carrier Store after a reset (70_reset_and_hazards.md R272, R273) -/

/-- The reset's turn always answers a next state. -/
theorem step_reset {s : State} {written : List Nat} {rest : List Turn} (hs : s.schedule = .reset written :: rest) :
    step s = .next (resetBlock written { s with schedule := rest }) := step_turn hs

/-- A HIDE that would have failed has written no pixel (40_command.md R113). -/
theorem cutPixels_of_error {s : State} {e : ErrorCode} (h : commandError .hide s = some e) (written : List Nat) :
    cutPixels written s = [] := by
  refine if_neg fun ⟨hvalid, hfits⟩ => ?_
  rw [commandError_none_of_fits hvalid hfits] at h
  cases h

/-- A HIDE that would have succeeded has written the pixels of its stream that were drawn. -/
theorem mem_cutPixels_of_success {s : State} (h : commandError .hide s = none) {written : List Nat} {k : Nat} :
    k ∈ cutPixels written s ↔ k < framedBits s ∧ k ∈ written := by
  rw [cutPixels, if_pos ⟨valid_of_success h, capacityOk_of_success h⟩, List.mem_filter, List.mem_range,
    decide_eq_true_iff]

/-- What a cut HIDE leaves of each pixel, whether the HIDE would have succeeded or failed. -/
theorem csRead_cutHide_eq (written : List Nat) (s : State) (k : Nat) :
    csRead (cutHide written s) k =
      if k < framedBits s ∧ k ∈ written then carrierByte (ended .hide s) k else carrierByte s k := by
  rcases ended_cases .hide s with ⟨e, herr, hend⟩ | ⟨hok, hend⟩ <;> rw [hend]
  · rw [cutHide, cutPixels_of_error herr]
    exact (ite_self _).symm
  · have hpacked : carrierByte (finish (performed .hide s)) k = csRead (packedCarrier s) k := rfl
    rw [cutHide, csRead_foldl_pixelWrite _ (nodup_cutPixels written s), hpacked, carrierByte_packed]
    simp only [mem_cutPixels_of_success hok]
    by_cases hdrawn : k < framedBits s ∧ k ∈ written
    · rw [if_pos hdrawn, if_pos hdrawn, if_pos hdrawn.1]
      rfl
    · rw [if_neg hdrawn, if_neg hdrawn]
      rfl

theorem carrierAfterReset_of_hide {s : State} {held : Operands} (h : s.seq = .busy 0x00000001#32 held)
    (written : List Nat) : carrierAfterReset written s = cutHide written s := by
  have hd : decode 0x00000001#32 = .ok .hide := by decide
  simp only [carrierAfterReset, h, hd, if_true]

/-- HIDE has one word (30_encoding.md R93), so no other held word cuts one. -/
theorem carrierAfterReset_of_not_hide {s : State} (h : ∀ held, s.seq ≠ .busy 0x00000001#32 held)
    (written : List Nat) : carrierAfterReset written s = s.carrier := by
  unfold carrierAfterReset
  split
  · rfl
  · next w held hseq =>
    exact if_neg fun hd => h held (eq_one_of_decode_hide hd ▸ hseq)

/-! ### The end of a run (70_reset_and_hazards.md R286) -/

theorem step_of_runEnded {s : State} (h : runEnded s) : step s = .next s := by
  obtain ⟨hschedule, hidle⟩ := h
  rw [step_of_no_turn hschedule, complete_idle (seq_of_not_busy hidle)]

/-! ### The statements -/

/-- Settles O44: the block's fields and the buffers are those of `resetBlock`, and with no HIDE to cut the Carrier Store
stays. -/
theorem resetTurnRestoresTheResetState : Obligations.ResetTurnRestoresTheResetState := fun s written rest hs =>
  ⟨resetBlock written { s with schedule := rest }, step_reset hs, rfl, rfl, rfl, rfl, fun _ => ⟨rfl, rfl, rfl⟩,
    fun hnot => carrierAfterReset_of_not_hide (s := { s with schedule := rest }) hnot written⟩

/-- Settles O45: the reset leaves the carrier of the cut HIDE, and `framedBits` is `8 * (Lm + 3)` of its held operands. -/
theorem resetDuringHideLeavesEachPixelOldOrNew : Obligations.ResetDuringHideLeavesEachPixelOldOrNew := by
  intro s held written rest hseq hs
  refine ⟨_, _, step_reset hs, exec_eq .hide s, fun k => ?_⟩
  rw [← framedBits_of_seq_busy hseq, ← csRead_cutHide_eq]
  exact congrArg (csRead · k) (carrierAfterReset_of_hide (s := { s with schedule := rest }) hseq written)

/-- Settles O53, by induction on the number of steps: each one leads back to the same state. -/
theorem endedRunStaysEnded : Obligations.EndedRunStaysEnded := by
  intro s n hended
  induction n with
  | zero => exact run_zero s
  | succ n ih => rw [run_succ n (step_of_runEnded hended), ih]

end Sys2Proof.Machine
end
